-- ==== Sys2Proof/Word.lean ====
section
/-! DEFINITION. The word and byte types. -/

namespace Sys2Proof

/-- A 32-bit value, bits numbered 31 (most significant) down to 0 (R7, R10). -/
abbrev Word := BitVec 32

/-- One byte of memory, the unit an instruction is fetched in. -/
abbrev Byte := BitVec 8

end Sys2Proof
end

