-- ==== Sys2Proof/Config.lean ====
section
/-! DEFINITION. What an implementation fixes (`Cfg`, R6) and the functions the spec leaves open (opaque constants). -/

namespace Sys2Proof

/-- The configuration record of R6: fixed for the life of the PE, every value of it OPEN (D2).
The model carries it in its state and never changes it, so a claim about every state is a claim about every
configuration (log 1). -/
structure Cfg where
  /-- FEAT_AA32EL1: the register is present at all (R2). -/
  featAA32EL1 : Bool
  /-- FEAT_AA32EL2. -/
  featAA32EL2 : Bool
  /-- FEAT_AA64EL2. -/
  featAA64EL2 : Bool
  /-- FEAT_AA32EL3: the instances TTBCR_S and TTBCR_NS exist (R11). -/
  featAA32EL3 : Bool
  /-- FEAT_AA64: with EL3 implemented, the instance TTBCR exists as well (R11). -/
  featAA64 : Bool
  /-- FEAT_AA32HPD: bit [6] of the EAE == 1 format is T2E (R36). -/
  featAA32HPD : Bool
  /-- HaveEL(EL3). -/
  haveEL3 : Bool
  /-- RES0_POLICY in the EAE == 0 format (R40, D1): a set bit makes that reserved position `hardwired_zero`, a clear
  bit makes it `storage`. Bits at positions that are not reserved in the format say nothing. -/
  res0Short : Word
  /-- RES0_POLICY in the EAE == 1 format, read likewise. -/
  res0Long : Word
  deriving DecidableEq, Repr

/-- The two translation table base registers (R48). -/
inductive TtbrNum where
  | ttbr0
  | ttbr1
  deriving DecidableEq, Repr, Inhabited

/-- What `SelectLong` answers (R62). -/
inductive Region where
  | useTtbr0
  | useTtbr1
  | noRegion
  deriving DecidableEq, Repr, Inhabited

/-- The two translation table formats (R16, R61). -/
inductive TableFormat where
  | shortDescriptor
  | longDescriptor
  deriving DecidableEq, Repr

/-- The listed values of SH0 and SH1 (R24, R32). 0b01 is reserved and stands for none of them. -/
inductive Shareability where
  | nonShareable
  | outerShareable
  | innerShareable
  deriving DecidableEq, Repr

/-- The four values of ORGN0, ORGN1, IRGN0 and IRGN1, all of Normal memory (R25, R26, R33, R34). -/
inductive Cacheability where
  | nonCacheable
  | writeBackReadAllocateWriteAllocate
  | writeThroughReadAllocateNoWriteAllocate
  | writeBackReadAllocateNoWriteAllocate
  deriving DecidableEq, Repr

/-- The attributes a walk in the EAE == 1 format is made with (R65). -/
structure WalkAttributes where
  shareability : Shareability
  outer : Cacheability
  inner : Cacheability
  deriving DecidableEq, Repr

/-- Everything TTBCR settles about one translation table walk (R61 to R67). The walk itself is not in the spec
(R5 (2)): it belongs to the enclosing PE. -/
structure Walk where
  /-- The address being translated. -/
  va : Word
  /-- The TTBR the walk uses (R62). -/
  ttbr : TtbrNum
  /-- The format of the tables walked (R61). -/
  format : TableFormat
  /-- The base address that the TTBR holds (R48): by R63 for TTBR0 in the EAE == 0 format, and open otherwise (log 26). -/
  base : BitVec 64
  /-- The size of the table pointed to, in bytes, which N determines and the source does not give (R21, R63, N5; log 26); none
  where the spec makes no such statement (TTBR1, and the EAE == 1 format). -/
  tableSize : Option Nat
  /-- The memory attributes of the walk; none in the EAE == 0 format (R65). -/
  attributes : Option WalkAttributes
  /-- The TTBR that defines the ASID, and the ASID it holds; none in the EAE == 0 format (R66). -/
  asid : Option (TtbrNum × Nat)
  /-- TTBCR2 as the walk sees it: zero unless TTBCR.{EAE, T2E} is {1, 1} (R67). -/
  ttbcr2 : Word
  deriving DecidableEq, Repr

/-- What a translation request comes to. -/
inductive Resolution where
  /-- The TLB holds a translation for the address: it is used, whatever the walk disable bits say (R64). -/
  | cached (va : Word)
  /-- A TLB miss, and walks through the selected TTBR are enabled (R64). -/
  | walk (w : Walk)
  /-- A TLB miss, and walks through the selected TTBR are disabled (R64, R124). -/
  | translationFault (va : Word) (x : TtbrNum)
  /-- A TLB miss, and `SelectLong` puts the address in no region (R62). -/
  | noRegion (va : Word)
  /-- A TLB miss whose walk would use a TTBR with the reserved Shareability 0b01 (D19). -/
  | reservedShareability (x : TtbrNum)
  deriving DecidableEq, Repr, Inhabited

/-- `SelectShort` (R62, D14): how N chooses the TTBR in the EAE == 0 format. OPEN: the source does not give it. -/
opaque Config.selectShort (n : BitVec 3) (va : Word) : TtbrNum

/-- `SelectLong` (R62, D14): how T0SZ and T1SZ choose the TTBR in the EAE == 1 format. OPEN. -/
opaque Config.selectLong (t0sz t1sz : BitVec 3) (va : Word) : Region

/-- `IMPDEF30` (R23, D15): what a set bit [30] of the EAE == 1 format makes of a translation. OPEN. DESIGN CHOICE: it depends on
what the translation would come to with the bit 0, and on nothing else of the machine (log 24). -/
opaque Config.impdef30 (r : Resolution) : Resolution

/-- The size in bytes of the table pointed to by TTBR0 in the EAE == 0 format (R63): N determines it, and the source does not
give it (N5). OPEN; the general-knowledge candidate is `Machine.candidateTtbr0TableSize`. -/
opaque Config.ttbr0TableSize (n : BitVec 3) : Nat

/-- The base address that a TTBR holds, where the source does not say which bits its base address field is (R48, R63, N8): TTBR1
in the EAE == 0 format, and both TTBRs in the EAE == 1 format. `size` is N, or T0SZ or T1SZ, whichever goes with the TTBR. OPEN.
DESIGN CHOICE: it depends on these arguments alone (log 26). -/
opaque Config.ttbrBase (format : TableFormat) (x : TtbrNum) (size : BitVec 3) (ttbr : BitVec 64) : BitVec 64

/-- The ASID field of a TTBR (R66): its place and width are not in the source (N8), and need not be the same in TTBR0 and
TTBR1. OPEN. -/
opaque Config.ttbrAsid (x : TtbrNum) (ttbr : BitVec 64) : Nat

end Sys2Proof
end

