-- ==== Sys2Proof/Syntax.lean ====
section
/-! DEFINITION. The two access instructions as terms (R80 to R88), one constructor per row of the opcode table. -/

namespace Sys2Proof

/-- The instruction set being decoded (R87). -/
inductive Isa where
  | a32
  | t32
  deriving DecidableEq, Repr

/-- The conditions a `cond` field can hold. 0b1111 is none of them: it selects a different instruction space (R83). -/
inductive Cond where
  | eq
  | ne
  | cs
  | cc
  | mi
  | pl
  | vs
  | vc
  | hi
  | ls
  | ge
  | lt
  | gt
  | le
  | al
  deriving DecidableEq, Repr

/-- How an access is written down: an A32 word carries its condition, a T32 pair of halfwords carries none and takes it
from an enclosing IT block (R83, R84). -/
inductive Form where
  | a32 (cond : Cond)
  | t32
  deriving DecidableEq, Repr

/-- The instruction set a form belongs to. -/
def Form.isa : Form → Isa
  | .a32 _ => .a32
  | .t32 => .t32

/-- A register number `t` of `R[t]`: 0 to 14 are admitted (R42, R86). -/
abbrev Reg := Fin 15

/-- A point of the System register encoding space (R52, R80). -/
structure SysReg where
  coproc : BitVec 4
  opc1 : BitVec 3
  crn : BitVec 4
  crm : BitVec 4
  opc2 : BitVec 3
  deriving DecidableEq, Repr

/-- The instructions of the opcode table. -/
inductive Instr where
  /-- MRC p15, 0, <Rt>, c2, c0, 2: read TTBCR (R100). -/
  | mrcTtbcr (form : Form) (rt : Reg)
  /-- MCR p15, 0, <Rt>, c2, c0, 2: write TTBCR (R101). -/
  | mcrTtbcr (form : Form) (rt : Reg)
  deriving DecidableEq, Repr

/-- The form an instruction is written in. -/
def Instr.form : Instr → Form
  | .mrcTtbcr f _ => f
  | .mcrTtbcr f _ => f

/-- The register number of an instruction's `<Rt>` operand. -/
def Instr.rt : Instr → Reg
  | .mrcTtbcr _ t => t
  | .mcrTtbcr _ t => t

/-- `R[15]` is no `Reg`; R13 is refused in T32 (R86, D8). -/
def Form.admits (f : Form) (t : Reg) : Bool :=
  match f with
  | .a32 _ => true
  | .t32 => t != 13

end Sys2Proof
end

