-- ==== Sys2Proof/WellFormed.lean ====
section
/-! DEFINITION. Which instruction terms an encoding of the spec stands for. -/

namespace Sys2Proof

/-- An instruction is well formed when its form admits its register (R86, D8: R13 is refused in T32). That `cond` is not
0b1111 and `t` is not 15 is in the types `Cond` and `Reg` already. -/
def Instr.wellFormed (i : Instr) : Bool :=
  i.form.admits i.rt

end Sys2Proof
end

