-- ==== Sys2Proof/Decode.lean ====
section
/-! DEFINITION. From bytes to an instruction or a named rejection, and back (R80 to R88). -/

namespace Sys2Proof

/-- Why bytes are no instruction of the spec. -/
inductive DecodeError where
  /-- Fewer than the four bytes both instructions have (R87). Safe: the model stops. -/
  | tooShort
  /-- An A32 word with cond = 0b1111: a different instruction space (R83). Safe. -/
  | unconditionalSpace (w : Word)
  /-- Not the MRC or MCR pattern: bits [27:24] are not 0b1110, or bit [4] is 0, or a T32 first halfword does not begin
  with 0b1110 (R83, R84). Safe. -/
  | notRegisterTransfer (w : Word)
  /-- An MRC or MCR of another System register: outside the spec (R86, U8). Safe. -/
  | otherSystemRegister (r : SysReg)
  /-- Rt = 15, refused in both instruction sets (R86, D8). Safe. -/
  | rt15
  /-- Rt = 13 in T32, refused (R86, D8). Safe. -/
  | rt13InT32
  deriving DecidableEq, Repr

/-! ### Fields -/

/-- The point that names TTBCR, for the read and for the write alike (R81). -/
def SysReg.ttbcr : SysReg :=
  { coproc := 0b1111#4, opc1 := 0b000#3, crn := 0b0010#4, crm := 0b0000#4, opc2 := 0b010#3 }

/-- The condition a `cond` field stands for. PRESUMED: the family's numbering of conditions (log 10); the spec names
0b0000 EQ, 0b0001 NE and 0b1110 always (R83, the vectors of `95_test_vectors.md`). -/
def Cond.ofBits (b : BitVec 4) : Option Cond :=
  if b = 0 then some .eq else if b = 1 then some .ne
  else if b = 2 then some .cs else if b = 3 then some .cc
  else if b = 4 then some .mi else if b = 5 then some .pl
  else if b = 6 then some .vs else if b = 7 then some .vc
  else if b = 8 then some .hi else if b = 9 then some .ls
  else if b = 10 then some .ge else if b = 11 then some .lt
  else if b = 12 then some .gt else if b = 13 then some .le
  else if b = 14 then some .al else none

/-- The `cond` field of a condition. -/
def Cond.bits : Cond → BitVec 4
  | .eq => 0
  | .ne => 1
  | .cs => 2
  | .cc => 3
  | .mi => 4
  | .pl => 5
  | .vs => 6
  | .vc => 7
  | .hi => 8
  | .ls => 9
  | .ge => 10
  | .lt => 11
  | .gt => 12
  | .le => 13
  | .al => 14

/-- The register an `Rt` field names: `t = UInt(Rt)` (R85), 15 refused (R86). -/
def Reg.ofBits (b : BitVec 4) : Option Reg :=
  if h : b.toNat < 15 then some ⟨b.toNat, h⟩ else none

/-- The `Rt` field of a register. -/
def Reg.bits (t : Reg) : BitVec 4 :=
  BitVec.ofNat 4 t.val

/-- The System register a 32-bit MRC or MCR names (R83: opc1 [23:21], CRn [19:16], coproc [11:8], opc2 [7:5],
CRm [3:0]). -/
def SysReg.ofWord (w : Word) : SysReg :=
  { coproc := w.extractLsb' 8 4, opc1 := w.extractLsb' 21 3, crn := w.extractLsb' 16 4,
    crm := w.extractLsb' 0 4, opc2 := w.extractLsb' 5 3 }

/-! ### Decoding -/

/-- The part A32 and T32 share: bits [27:0] of the word (R83, R84). -/
def decodeTransfer (f : Form) (w : Word) : Except DecodeError Instr :=
  if w.extractLsb' 24 4 ≠ 0b1110#4 ∨ w.getLsbD 4 = false then .error (.notRegisterTransfer w)
  else if SysReg.ofWord w ≠ SysReg.ttbcr then .error (.otherSystemRegister (SysReg.ofWord w))
  else
    match Reg.ofBits (w.extractLsb' 12 4) with
    | none => .error .rt15
    | some t =>
      if f.admits t = false then .error .rt13InT32
      else if w.getLsbD 20 then .ok (.mrcTtbcr f t) else .ok (.mcrTtbcr f t)

/-- An instruction's 32 bits, with the T32 first halfword in bits [31:16] (R84: the layout is that of R83 with bits
[31:28] fixed to 0b1110). -/
def decodeWord (isa : Isa) (w : Word) : Except DecodeError Instr :=
  match isa with
  | .a32 =>
    match Cond.ofBits (w.extractLsb' 28 4) with
    | none => .error (.unconditionalSpace w)
    | some c => decodeTransfer (.a32 c) w
  | .t32 =>
    if w.extractLsb' 28 4 = 0b1110#4 then decodeTransfer .t32 w else .error (.notRegisterTransfer w)

/-- The 32 bits that four bytes hold. A32: one word, the least significant byte first. T32: two halfwords, each with the least
significant byte first, the first halfword in the upper half (R84). That is the order of a little-endian memory; a fetch puts
the bytes of a big-endian one into it (R71, log 9). -/
def wordOfBytes (isa : Isa) (b0 b1 b2 b3 : Byte) : Word :=
  match isa with
  | .a32 => b3 ++ b2 ++ b1 ++ b0
  | .t32 => b1 ++ b0 ++ b3 ++ b2

/-- The bytes of 32 bits in that order; the inverse of `wordOfBytes`. -/
def bytesOfWord (isa : Isa) (w : Word) : List Byte :=
  match isa with
  | .a32 => [w.extractLsb' 0 8, w.extractLsb' 8 8, w.extractLsb' 16 8, w.extractLsb' 24 8]
  | .t32 => [w.extractLsb' 16 8, w.extractLsb' 24 8, w.extractLsb' 0 8, w.extractLsb' 8 8]

/-- Decoding, total on any bytes: both instructions take the first four (R87). -/
def decode (isa : Isa) (bytes : List Byte) : Except DecodeError Instr :=
  match bytes with
  | b0 :: b1 :: b2 :: b3 :: _ => decodeWord isa (wordOfBytes isa b0 b1 b2 b3)
  | _ => .error .tooShort

/-! ### Encoding -/

/-- Bits [31:28]: `cond` in A32 (R83), 0b1110 in T32 (R84). -/
def Form.topBits : Form → BitVec 4
  | .a32 c => c.bits
  | .t32 => 0b1110#4

/-- Bit [20], L: 1 for MRC, 0 for MCR (R83). -/
def Instr.lBit : Instr → BitVec 1
  | .mrcTtbcr _ _ => 1
  | .mcrTtbcr _ _ => 0

/-- The row of the layout table of R83, field by field: cond 1110 opc1 L CRn Rt coproc opc2 1 CRm. -/
def encodeTransfer (top : BitVec 4) (l : BitVec 1) (t : BitVec 4) (r : SysReg) : Word :=
  top ++ 0b1110#4 ++ r.opc1 ++ l ++ r.crn ++ t ++ r.coproc ++ r.opc2 ++ 0b1#1 ++ r.crm

/-- The 32 bits of an instruction. -/
def encode (i : Instr) : Word :=
  encodeTransfer i.form.topBits i.lBit (Reg.bits i.rt) SysReg.ttbcr

/-- The bytes of an instruction in the order `decode` takes them. -/
def encodeBytes (i : Instr) : List Byte :=
  bytesOfWord i.form.isa (encode i)

/-! ### The opcode table's numbering -/

/-- The instruction the decoder reads from an opcode table word: `spec/opcode_table.json` numbers the bits of an A32 word,
so the bytes are those of an A32 word, and every bit above `nbits` is 0. -/
def decodeTableWord (nbits w : Nat) : Option Instr :=
  (decode .a32 (bytesOfWord .a32 (BitVec.ofNat 32 (w % 2 ^ nbits)))).toOption

/-! ### Assembler spelling -/

/-- The suffix of a condition in the assembler spelling; AL is left out (R80, R88). -/
def Cond.suffix : Cond → String
  | .eq => "EQ"
  | .ne => "NE"
  | .cs => "CS"
  | .cc => "CC"
  | .mi => "MI"
  | .pl => "PL"
  | .vs => "VS"
  | .vc => "VC"
  | .hi => "HI"
  | .ls => "LS"
  | .ge => "GE"
  | .lt => "LT"
  | .gt => "GT"
  | .le => "LE"
  | .al => ""

/-- The condition suffix of a form: the T32 word carries none (R84). -/
def Form.suffix : Form → String
  | .a32 c => c.suffix
  | .t32 => ""

/-- The assembler line of an instruction, as R88 writes it out. -/
def Instr.assembly (i : Instr) : String :=
  (match i with | .mrcTtbcr _ _ => "MRC" | .mcrTtbcr _ _ => "MCR") ++ i.form.suffix ++ " p15, 0, r" ++ toString i.rt.val
    ++ ", c2, c0, 2"

end Sys2Proof
end

