-- ==== Sys2Proof/Machine/State.lean ====
section
/-! DEFINITION. The state of the machine as plain data, the state after reset, and the reasons a step can stop. -/

namespace Sys2Proof.Machine

/-- The Exception levels `PSTATE.EL` takes (R43). -/
inductive EL where
  | el0
  | el1
  | el2
  | el3
  deriving DecidableEq, Repr

/-- A range of addresses, `size` bytes from `base` on. -/
structure Extent where
  base : Word
  size : Nat
  deriving DecidableEq, Repr

/-- `MemoryModel` of R6, the parameter of the enclosing PE that is byte order, alignment, address map and consistency, every
value of it OPEN (D11). Neither access reads it; the fetch of an instruction does (log 33). -/
structure MemoryModel where
  /-- The byte order of instruction fetches: true is big-endian (R71, log 9). -/
  bigEndian : Bool
  /-- What the address of an A32 instruction is a multiple of (R72, log 7). -/
  a32Unit : Nat
  /-- What the address of a T32 instruction is a multiple of (R72, log 7). -/
  t32Unit : Nat
  /-- The addresses the platform's map leaves out (R74, log 8). -/
  absent : List Extent
  /-- Everything else of the parameter, its consistency and coherence among them (R75, R78): nothing reads it (log 33). -/
  other : Nat
  deriving DecidableEq, Repr

/-- The environment record of R6: state of the enclosing PE that the accesses read and never write, and that may change
between any two accesses (R152). -/
structure Env where
  /-- PSTATE.EL (R43). -/
  el : EL
  /-- EL2Enabled() (R104). -/
  el2Enabled : Bool
  /-- ELUsingAArch32(EL2) (R104). -/
  el2UsesAArch32 : Bool
  /-- ELUsingAArch32(EL3) (R104). -/
  el3UsesAArch32 : Bool
  /-- SCR.NS: false is '0' (R44). -/
  scrNS : Bool
  /-- HSTR.T2 (R45). -/
  hstrT2 : Bool
  /-- HSTR_EL2.T2 (R45). -/
  hstrEl2T2 : Bool
  /-- HCR.TRVM: traps reads (R46). -/
  hcrTRVM : Bool
  /-- HCR_EL2.TRVM: traps reads (R46). -/
  hcrEl2TRVM : Bool
  /-- HCR.TVM: traps writes (R46). -/
  hcrTVM : Bool
  /-- HCR_EL2.TVM: traps writes (R46). -/
  hcrEl2TVM : Bool
  /-- CP15SDISABLE: true is HIGH (R47). -/
  cp15SDisable : Bool
  /-- CP15SDISABLE2: true is HIGH (R47). -/
  cp15SDisable2 : Bool
  /-- MemoryModel (R6, D11). -/
  memoryModel : MemoryModel
  deriving DecidableEq, Repr

/-- The condition flags, read by a conditional instruction alone (R51). PRESUMED: the family's four (log 10). -/
structure Flags where
  n : Bool
  z : Bool
  c : Bool
  v : Bool
  deriving DecidableEq, Repr

/-- The two Security states (R131). -/
inductive Security where
  | secure
  | nonSecure
  deriving DecidableEq, Repr

/-- The three names of TTBCR's storage (R11). -/
inductive Bank where
  | ttbcr
  | ttbcrS
  | ttbcrNS
  deriving DecidableEq, Repr

/-- One storage of TTBCR: its 32 bits (R10), and the earlier values that a translation may still use because no context
synchronization event has happened since they were replaced, newest first (R148, D12). -/
structure Ttbcr where
  value : Word
  stale : List Word
  deriving DecidableEq, Repr

/-- Memory: bytes by address, the addresses strictly rising and below 2^32; an unlisted address holds no byte (log 8). -/
abbrev Memory := List Host.Cell

/-- The addresses the TLB holds a translation for, strictly rising (R49, log 17). -/
abbrev Tlb := List Word

/-- The state of the machine: what the spec names, and `lastTranslation`. -/
structure Arch where
  /-- R[0] to R[14] (R42). -/
  regs : Vector Word 15
  /-- The program counter (R50, R110). -/
  pc : Word
  /-- The instruction set being decoded (R87). -/
  isa : Isa
  /-- The condition flags (R51). -/
  flags : Flags
  /-- The condition that the enclosing IT block gives a T32 instruction; `al` outside any block (R84, log 11). -/
  itCond : Cond
  /-- The `Env` inputs of R6. -/
  env : Env
  /-- TTBCR, the single storage (R11). -/
  ttbcr : Ttbcr
  /-- TTBCR_S, the Secure storage (R11). -/
  ttbcrS : Ttbcr
  /-- TTBCR_NS, the Non-secure storage (R11). -/
  ttbcrNS : Ttbcr
  /-- TTBR0 (R48). PRESUMED 64 bits wide (log 22). -/
  ttbr0 : BitVec 64
  /-- TTBR1 (R48). PRESUMED 64 bits wide (log 22). -/
  ttbr1 : BitVec 64
  /-- TTBCR2 (R48, R67). PRESUMED 32 bits wide (log 22). -/
  ttbcr2 : Word
  /-- TCR_EL1[63:32] (R13); bits [31:0] are the mapped storage itself. -/
  tcrEl1Hi : Word
  /-- The TLB (R49). -/
  tlb : Tlb
  /-- Memory, read by instruction fetch alone (R106). -/
  mem : Memory
  /-- The MODEL's own field: what the last translation request came to, handed to the enclosing PE (log 16). -/
  lastTranslation : Option Resolution
  deriving DecidableEq, Repr

/-- The kinds of reset (R140, R144). -/
inductive ResetKind where
  | warm
  | cold
  deriving DecidableEq, Repr

/-- The draws of one translation request of an instruction fetch: which of the values it may use it uses, 0 the current one
(R148), and the address in memory that it comes to, which is the walk's or the TLB's to say (R5 (2), R78, log 15). -/
structure FetchDraw where
  choice : Nat
  pa : Word
  deriving DecidableEq, Repr

/-- What may act next (R151, R152): the PE, which runs one instruction, or the environment of the PE. The values that the
spec leaves to a draw are arguments, so they are free. -/
inductive Input where
  /-- The PE runs the instruction at its program counter. -/
  | execute
  /-- The PE runs the instruction at its program counter, and the fetch is translated in the stage 1 PL1&0 regime (R60, R64,
  R78): by one request for an A32 word, and by one for each halfword in T32, the second drawing `second` (log 15). -/
  | executeTranslated (sec : Security) (first second : FetchDraw)
  /-- The `Env` inputs take new values (R152). `draw` is what a name of TTBCR holds that becomes reachable because EL3's
  execution state changed without a reset (D18); it is not used otherwise. -/
  | environment (e : Env) (draw : Word)
  /-- Another instruction of the PE writes `R[t]` (R5 (4), R42). -/
  | general (t : Reg) (v : Word)
  /-- Another instruction or an exception moves control (R127, R152). -/
  | control (isa : Isa) (pc : Word)
  /-- Another instruction writes the flags or enters, advances in or leaves an IT block (R51, R84). -/
  | status (flags : Flags) (itCond : Cond)
  /-- Software writes TCR_EL1 in AArch64 state (R13, R151), which the model lets happen in every `Cfg` and `Env` (log 20). -/
  | writeTcrEl1 (v : BitVec 64)
  /-- Software writes TTBR0 (R48). DESIGN CHOICE: translations use the new value at once, and so with TTBR1 and TTBCR2
  (log 37). -/
  | writeTtbr0 (v : BitVec 64)
  /-- Software writes TTBR1 (R48). -/
  | writeTtbr1 (v : BitVec 64)
  /-- Software writes TTBCR2 (R48, R67). -/
  | writeTtbcr2 (v : Word)
  /-- A context synchronization event of the enclosing PE (R148). -/
  | contextSync
  /-- The TLB comes to hold a translation for `va` (R49, D13). -/
  | tlbFill (va : Word)
  /-- The TLB no longer holds a translation for `va` (R49, D13, R79). -/
  | tlbEvict (va : Word)
  /-- The stage 1 PL1&0 regime translates `va` for the given Security state (R60). `choice` picks among the values the
  translation may use, 0 the current one (R148, D12). -/
  | translate (sec : Security) (va : Word) (choice : Nat)
  /-- Reset (R140 to R145). `aarch32` says whether the PE resets into an Exception level that is using AArch32, and `draw`
  is every value the spec does not state, the Exception level `draw.env.el` among them (D3). -/
  | reset (kind : ResetKind) (aarch32 : Bool) (draw : Arch)
  deriving DecidableEq, Repr

/-- The machine: its state, its configuration, which never changes, and the schedule of what acts next. With an empty
schedule the PE runs its next instruction (log 3). -/
structure State extends Arch where
  /-- The configuration of R6 (log 1). -/
  cfg : Cfg
  /-- The MODEL's own field: what acts next, first to last (log 3). -/
  inputs : List Input
  deriving DecidableEq, Repr

/-- Why the machine stops. -/
inductive Fault where
  /-- The outcome `Undefined` of an access (R121). Safe: the spec gives it no successor state (R127). -/
  | undefined
  /-- The outcome `HypTrap(code)` of an access at EL1 (R122). Safe, as above. -/
  | hypTrap (code : Nat)
  /-- The outcome `AArch64SystemAccessTrapToEL2(code)` of an access at EL1 (R123). Safe, as above. -/
  | aarch64SystemAccessTrapToEL2 (code : Nat)
  /-- The outcome `TranslationFault(va, X)` of a translation (R124), and, with no TTBR number, the Translation fault of an
  address that `SelectLong` puts in no region (R62). Safe, as above. PRESUMED: the second is R70's general knowledge
  (log 23). -/
  | translationFault (va : Word) (x : Option TtbrNum)
  /-- A fetch at a program counter that is not a multiple of the instruction set's unit (R72). Safe (log 7). -/
  | pcMisaligned (pc : Word)
  /-- A fetch of a byte that nothing has placed in memory (R74). Safe (log 8). -/
  | fetchUnwritten (addr : Word)
  /-- A fetch at an address that the platform's map leaves out (R74). Safe (log 8). -/
  | fetchAbsent (addr : Word)
  deriving DecidableEq, Repr

/-- Why the model has no meaning for what comes next. -/
inductive Refusal where
  /-- Raised by an arm of `exec` for an instruction that has no meaning yet. Safe. No arm raises it. -/
  | notModelled (mnemonic : String)
  /-- Raised by a step whose bytes are no instruction of the spec (R86, U8). Safe. -/
  | encoding (e : DecodeError)
  /-- Raised by both meanings for a register their form does not admit (R86, D8: R13 in T32). Safe; no decoded instruction
  raises it. -/
  | rtNotAdmitted (t : Reg)
  /-- Raised by a translation whose walk would use a TTBR with Shareability 0b01 (D19, U3, U4). Safe. -/
  | reservedShareability (x : TtbrNum)
  deriving DecidableEq, Repr

/-- The answer of a step. -/
abbrev Answer := Host.Outcome State Fault Refusal

/-- The configuration of the reset state: AArch32 at EL1, EL2 and EL3, no AArch64, T2E present, every RES0 position
`storage`. DESIGN CHOICE: the spec leaves each OPEN (D1, D2; log 1). -/
def resetCfg : Cfg :=
  { featAA32EL1 := true, featAA32EL2 := true, featAA64EL2 := false, featAA32EL3 := true, featAA64 := false,
    featAA32HPD := true, haveEL3 := true, res0Short := 0, res0Long := 0 }

/-- The memory model of the reset state: the family's little-endian fetches of A32 words at multiples of 4 and T32 halfwords at
multiples of 2, PRESUMED (log 7, log 9), and every address in the map, DESIGN CHOICE (D11; log 8, log 33). -/
def resetMemoryModel : MemoryModel :=
  { bigEndian := false, a32Unit := 4, t32Unit := 2, absent := [], other := 0 }

/-- The environment of the reset state: Secure EL3 using AArch32, no trap, no lock-out. DESIGN CHOICE (D2; log 2). -/
def resetEnv : Env :=
  { el := .el3, el2Enabled := false, el2UsesAArch32 := true, el3UsesAArch32 := true, scrNS := false, hstrT2 := false,
    hstrEl2T2 := false, hcrTRVM := false, hcrEl2TRVM := false, hcrTVM := false, hcrEl2TVM := false,
    cp15SDisable := false, cp15SDisable2 := false, memoryModel := resetMemoryModel }

/-- The machine right after a Warm reset into EL3 using AArch32. The spec states the bits 0xFFC73FB7 of TTBCR_S and bit [31]
of TTBCR_NS, all 0 (R141, R142). Everything else is a DESIGN CHOICE (log 1, 2, 5 to 8, 10, 11, 17, 18, 20, 22, 33, 35). -/
def State.reset : State :=
  { regs := Vector.replicate 15 0, pc := 0, isa := .a32, flags := ⟨false, false, false, false⟩, itCond := .al,
    env := resetEnv, ttbcr := ⟨0, []⟩, ttbcrS := ⟨0, []⟩, ttbcrNS := ⟨0, []⟩, ttbr0 := 0, ttbr1 := 0, ttbcr2 := 0,
    tcrEl1Hi := 0, tlb := [], mem := [], lastTranslation := none, cfg := resetCfg, inputs := [] }

end Sys2Proof.Machine
end

