-- ==== Sys2Proof/Machine/Flags.lean ====
section
/-! DEFINITION. Whether an instruction's condition passed (R51). Neither access writes a flag (R106). -/

namespace Sys2Proof.Machine

/-- Whether a condition holds of the flags. PRESUMED: the family's table (log 10); the spec states its rules only for a
passed condition (D7). -/
def condHolds (c : Cond) (f : Flags) : Bool :=
  match c with
  | .eq => f.z
  | .ne => !f.z
  | .cs => f.c
  | .cc => !f.c
  | .mi => f.n
  | .pl => !f.n
  | .vs => f.v
  | .vc => !f.v
  | .hi => f.c && !f.z
  | .ls => !f.c || f.z
  | .ge => f.n == f.v
  | .lt => f.n != f.v
  | .gt => !f.z && f.n == f.v
  | .le => f.z || f.n != f.v
  | .al => true

/-- The condition that governs an instruction: its own `cond` in A32 (R83), that of the enclosing IT block in T32 (R84). -/
def governingCond (f : Form) (s : State) : Cond :=
  match f with
  | .a32 c => c
  | .t32 => s.itCond

/-- Whether the instruction's condition passed, the premise of R100 and R101. -/
def conditionPassed (f : Form) (s : State) : Bool :=
  condHolds (governingCond f s) s.flags

end Sys2Proof.Machine
end

