-- ==== Sys2Proof/Machine/Operands.lean ====
section
/-! DEFINITION. The one operand form, `<Rt>`, and the program counter (R42, R85, R110). -/

namespace Sys2Proof.Machine

/-- Read of `R[t]` (R8, R42). -/
def State.readReg (s : State) (t : Reg) : Word :=
  s.regs[t.val]

/-- Write of `R[t]`, all 32 bits (R8, R42). -/
def State.writeReg (s : State) (t : Reg) (v : Word) : State :=
  { s with regs := s.regs.set t.val v }

/-- `pc <- pc + 4` (R110). PRESUMED: it wraps at 2^32 (log 7). -/
def State.advancePc (s : State) : State :=
  { s with pc := s.pc + 4 }

/-- What surrounds the effect of either access: a register the form does not admit is refused (R86, D8), and an
instruction whose condition fails only advances the program counter (D7, G21, log 10). -/
def gated (f : Form) (t : Reg) (s : State) (effect : Answer) : Answer :=
  if f.admits t then
    if conditionPassed f s then effect else .next s.advancePc
  else .refused (.rtNotAdmitted t)

end Sys2Proof.Machine
end

