-- ==== Sys2Proof/Machine/Ttbcr.lean ====
section
/-! DEFINITION. The 32 bits of TTBCR under its two formats: fields, reserved bits, and what a read returns (R14 to R41). -/

namespace Sys2Proof.Machine

/-! ### Fields (the extraction table of R41) -/

/-- EAE, bit [31], in both formats (R16). -/
def eae (v : Word) : Bool := v.getLsbD 31

/-- The format of an instance is the one its own bit [31] selects (R14, D20). -/
def tableFormat (v : Word) : TableFormat :=
  if eae v then .longDescriptor else .shortDescriptor

/-- The fields of the EAE == 0 format, the reserved ones among them (R15). -/
structure ShortFields where
  /-- Bits [30:6], RES0 (R17). -/
  res30 : BitVec 25
  /-- Bit [5] (R18). -/
  pd1 : BitVec 1
  /-- Bit [4] (R19). -/
  pd0 : BitVec 1
  /-- Bit [3], RES0 (R20). -/
  res3 : BitVec 1
  /-- Bits [2:0] (R21). -/
  n : BitVec 3
  deriving DecidableEq, Repr

/-- The fields of the EAE == 1 format, the reserved ones among them (R22). -/
structure LongFields where
  /-- Bit [30], IMPLEMENTATION DEFINED (R23). -/
  impl : BitVec 1
  /-- Bits [29:28] (R24). -/
  sh1 : BitVec 2
  /-- Bits [27:26] (R25). -/
  orgn1 : BitVec 2
  /-- Bits [25:24] (R26). -/
  irgn1 : BitVec 2
  /-- Bit [23] (R27). -/
  epd1 : BitVec 1
  /-- Bit [22] (R28). -/
  a1 : BitVec 1
  /-- Bits [21:19], RES0 (R29). -/
  res21 : BitVec 3
  /-- Bits [18:16] (R30). -/
  t1sz : BitVec 3
  /-- Bits [15:14], RES0 (R31). -/
  res15 : BitVec 2
  /-- Bits [13:12] (R32). -/
  sh0 : BitVec 2
  /-- Bits [11:10] (R33). -/
  orgn0 : BitVec 2
  /-- Bits [9:8] (R34). -/
  irgn0 : BitVec 2
  /-- Bit [7] (R35). -/
  epd0 : BitVec 1
  /-- Bit [6], T2E, or RES0 without FEAT_AA32HPD (R36). -/
  bit6 : BitVec 1
  /-- Bits [5:3], RES0 (R37). -/
  res5 : BitVec 3
  /-- Bits [2:0] (R38). -/
  t0sz : BitVec 3
  deriving DecidableEq, Repr

/-- The fields of a value read in the EAE == 0 format. -/
def ShortFields.ofWord (v : Word) : ShortFields :=
  { res30 := v.extractLsb' 6 25, pd1 := v.extractLsb' 5 1, pd0 := v.extractLsb' 4 1, res3 := v.extractLsb' 3 1,
    n := v.extractLsb' 0 3 }

/-- The fields of a value read in the EAE == 1 format. -/
def LongFields.ofWord (v : Word) : LongFields :=
  { impl := v.extractLsb' 30 1, sh1 := v.extractLsb' 28 2, orgn1 := v.extractLsb' 26 2, irgn1 := v.extractLsb' 24 2,
    epd1 := v.extractLsb' 23 1, a1 := v.extractLsb' 22 1, res21 := v.extractLsb' 19 3, t1sz := v.extractLsb' 16 3,
    res15 := v.extractLsb' 14 2, sh0 := v.extractLsb' 12 2, orgn0 := v.extractLsb' 10 2, irgn0 := v.extractLsb' 8 2,
    epd0 := v.extractLsb' 7 1, bit6 := v.extractLsb' 6 1, res5 := v.extractLsb' 3 3, t0sz := v.extractLsb' 0 3 }

/-- The register figure of R15, most significant field first. -/
def ShortFields.toWord (f : ShortFields) : Word :=
  0b0#1 ++ f.res30 ++ f.pd1 ++ f.pd0 ++ f.res3 ++ f.n

/-- The register figure of R22, most significant field first. -/
def LongFields.toWord (f : LongFields) : Word :=
  0b1#1 ++ f.impl ++ f.sh1 ++ f.orgn1 ++ f.irgn1 ++ f.epd1 ++ f.a1 ++ f.res21 ++ f.t1sz ++ f.res15 ++ f.sh0 ++ f.orgn0
    ++ f.irgn0 ++ f.epd0 ++ f.bit6 ++ f.res5 ++ f.t0sz

/-- T2E: bit [6] in the EAE == 1 format with FEAT_AA32HPD; without it, and with EAE == 0, as if 0 (R36, R41). -/
def t2e (cfg : Cfg) (v : Word) : Bool :=
  cfg.featAA32HPD && eae v && (LongFields.ofWord v).bit6 == 1

/-- TTBCR2 is enabled when TTBCR.{EAE, T2E} is {1, 1} (R67). -/
def ttbcr2Enabled (cfg : Cfg) (v : Word) : Bool :=
  eae v && t2e cfg v

/-! ### Values of the fields -/

/-- The table of SH0 and SH1 (R24, R32): none for the reserved value. -/
def shareability (b : BitVec 2) : Option Shareability :=
  if b = 0b00#2 then some .nonShareable
  else if b = 0b10#2 then some .outerShareable
  else if b = 0b11#2 then some .innerShareable
  else none

/-- The table of ORGN0, ORGN1, IRGN0 and IRGN1 (R25, R26, R33, R34). -/
def cacheability (b : BitVec 2) : Cacheability :=
  if b = 0b00#2 then .nonCacheable
  else if b = 0b01#2 then .writeBackReadAllocateWriteAllocate
  else if b = 0b10#2 then .writeThroughReadAllocateNoWriteAllocate
  else .writeBackReadAllocateNoWriteAllocate

/-- The disable bit `D` for a TTBR in the current format (R64): PD0, PD1, EPD0, EPD1. -/
def walkDisabled (v : Word) (x : TtbrNum) : Bool :=
  match eae v, x with
  | false, .ttbr0 => (ShortFields.ofWord v).pd0 == 1
  | false, .ttbr1 => (ShortFields.ofWord v).pd1 == 1
  | true, .ttbr0 => (LongFields.ofWord v).epd0 == 1
  | true, .ttbr1 => (LongFields.ofWord v).epd1 == 1

/-! ### Reserved bits (R40, D1, C9) -/

/-- The RES0 positions of the format a value selects: the masks of `95_test_vectors.md` section 2.1. -/
def res0Mask (cfg : Cfg) (v : Word) : Word :=
  if eae v then (if cfg.featAA32HPD then 0x0038C038#32 else 0x0038C078#32) else 0x7FFFFFC8#32

/-- The RES0 positions that are `hardwired_zero` in the format a value selects. -/
def hardwiredZero (cfg : Cfg) (v : Word) : Word :=
  res0Mask cfg v &&& (if eae v then cfg.res0Long else cfg.res0Short)

/-- What a read returns of stored bits: `hardwired_zero` positions read 0, every other bit reads as stored (R40 (b),
R105). DEDUCED: the storage keeps what was written and the read masks it, which no run can tell from storing 0 (C9,
log 4). -/
def readValue (cfg : Cfg) (v : Word) : Word :=
  v &&& ~~~(hardwiredZero cfg v)

/-- The bits that some field rule gives a reset value, always 0 (R142). -/
def resetMask : Word := 0xFFC73FB7#32

end Sys2Proof.Machine
end

