-- ==== Sys2Proof/Machine/Ops.lean ====
section
/-! DEFINITION. The shared operations: memory, the TLB, the storages of TTBCR, which one an access reaches, and the
exceptional outcomes. -/

namespace Sys2Proof.Machine

/-! ### Memory -/

/-- The canonical form: addresses strictly rising and below 2^32. Every listed byte is one an unlisted address does not
read as, since that reads as nothing (log 8). -/
abbrev Memory.wf (m : Memory) : Prop :=
  m.Pairwise (fun a b => a.1 < b.1) ∧ ∀ c ∈ m, c.1 < 2 ^ 32

/-- The byte at an address, none where nothing has placed one. -/
def Memory.read (m : Memory) (a : Nat) : Option Byte :=
  match m with
  | [] => none
  | (k, x) :: rest => if k = a then some x else Memory.read rest a

/-- Memory with one byte placed, in canonical form. -/
def Memory.write (m : Memory) (a : Nat) (b : Byte) : Memory :=
  match m with
  | [] => [(a, b)]
  | (k, x) :: rest =>
    if a < k then (a, b) :: (k, x) :: rest
    else if a = k then (a, b) :: rest
    else (k, x) :: Memory.write rest a b

/-- The bytes of a list placed at consecutive addresses, which wrap at 2^32 (log 7). -/
def Memory.writeBytes (m : Memory) (a : Word) (bytes : List Byte) : Memory :=
  match bytes with
  | [] => m
  | b :: rest => Memory.writeBytes (Memory.write m a.toNat b) (a + 1) rest

/-- The platform's map leaves an address out (R74). -/
def MemoryModel.isAbsent (mm : MemoryModel) (a : Word) : Bool :=
  mm.absent.any fun e => decide (e.base.toNat ≤ a.toNat ∧ a.toNat < e.base.toNat + e.size)

/-- So many bytes at consecutive addresses, which wrap at 2^32; an address outside the map faults, and so does a byte that
nothing has placed (log 8). -/
def Memory.readBytes (mm : MemoryModel) (m : Memory) (a : Word) (n : Nat) : Except Fault (List Byte) :=
  match n with
  | 0 => .ok []
  | k + 1 =>
    if mm.isAbsent a then .error (.fetchAbsent a)
    else
      match Memory.read m a.toNat with
      | none => .error (.fetchUnwritten a)
      | some b =>
        match Memory.readBytes mm m (a + 1) k with
        | .error e => .error e
        | .ok bs => .ok (b :: bs)

/-- The bytes of an A32 word or a T32 halfword in memory order, from those with the least significant first, and back
(R71). -/
def MemoryModel.order (mm : MemoryModel) (bytes : List Byte) : List Byte :=
  if mm.bigEndian then bytes.reverse else bytes

/-- An A32 word or a T32 halfword of `n` bytes at an address, the least significant byte first, as the decoder takes it. -/
def readUnit (mm : MemoryModel) (m : Memory) (a : Word) (n : Nat) : Except Fault (List Byte) :=
  match Memory.readBytes mm m a n with
  | .error e => .error e
  | .ok bytes => .ok (mm.order bytes)

/-- One byte of the machine's memory. -/
def State.readByte (s : State) (a : Word) : Option Byte :=
  Memory.read s.mem a.toNat

/-! ### The TLB (R49, D13) -/

/-- The canonical form of the TLB: addresses strictly rising. -/
abbrev Tlb.wf (t : Tlb) : Prop :=
  t.Pairwise (fun a b => a.toNat < b.toNat)

/-- The TLB with a translation for one more address. -/
def Tlb.fill (t : Tlb) (va : Word) : Tlb :=
  match t with
  | [] => [va]
  | k :: rest =>
    if va.toNat < k.toNat then va :: k :: rest
    else if va = k then k :: rest
    else k :: Tlb.fill rest va

/-- The TLB without a translation for an address. -/
def Tlb.evict (t : Tlb) (va : Word) : Tlb :=
  t.filter (fun k => k != va)

/-! ### The storages of TTBCR (R11, R12) -/

/-- The storage of one name. -/
def State.bank (s : State) (b : Bank) : Ttbcr :=
  match b with
  | .ttbcr => s.ttbcr
  | .ttbcrS => s.ttbcrS
  | .ttbcrNS => s.ttbcrNS

/-- The state with the storage of one name replaced; the others stay (R12). -/
def State.setBank (s : State) (b : Bank) (x : Ttbcr) : State :=
  match b with
  | .ttbcr => { s with ttbcr := x }
  | .ttbcrS => { s with ttbcrS := x }
  | .ttbcrNS => { s with ttbcrNS := x }

/-- The value a read of a name returns (R100, R40). -/
def State.readBank (s : State) (b : Bank) : Word :=
  readValue s.cfg (s.bank b).value

/-- A storage after a write of all its 32 bits: the value it held joins those a translation may still use (R105, R148). -/
def Ttbcr.write (x : Ttbcr) (v : Word) : Ttbcr :=
  { value := v, stale := x.value :: x.stale }

/-- `name <- v`: all 32 bits, no masking (R105). -/
def State.writeBank (s : State) (b : Bank) (v : Word) : State :=
  s.setBank b ((s.bank b).write v)

/-- The implementation has the storage of a name (R11). DESIGN CHOICE: so it answers without FEAT_AA32EL1 as well, where R2
says that the register is not present and R11 that no instance is accessible (log 36). -/
def hasBank (cfg : Cfg) (b : Bank) : Bool :=
  match b with
  | .ttbcr => !cfg.haveEL3 || cfg.featAA64
  | .ttbcrS => cfg.featAA32EL3
  | .ttbcrNS => cfg.featAA32EL3

/-- `EL3isAArch32` of R100 and R103. -/
def el3IsAArch32 (cfg : Cfg) (env : Env) : Bool :=
  cfg.haveEL3 && cfg.featAA32EL3 && env.el3UsesAArch32

/-- The name that EL1 and EL2 reach (R103), which is the one mapped to TCR_EL1[31:0] (R13, D17, log 20). -/
def mappedBank (cfg : Cfg) (env : Env) : Bank :=
  if el3IsAArch32 cfg env then .ttbcrNS else .ttbcr

/-- TCR_EL1: bits [31:0] are those of the mapped name (R13). DESIGN CHOICE: the RES0 policy of TTBCR holds of a read through
this name as well, of which the spec says nothing (N8, log 20). -/
def State.tcrEl1 (s : State) : BitVec 64 :=
  s.tcrEl1Hi ++ s.readBank (mappedBank s.cfg s.env)

/-! ### Which storage an access reaches, or which outcome it raises (R100 to R103, R107 to R109) -/

/-- The direction of an access. -/
inductive Direction where
  | read
  | write
  deriving DecidableEq, Repr

/-- The exceptional outcomes of an access (R120), with the arguments the source shows. -/
inductive Exceptional where
  | undefined
  | hypTrap (code : Nat)
  | aarch64SystemAccessTrapToEL2 (code : Nat)
  deriving DecidableEq, Repr

/-- What the access pseudocode decides. -/
inductive Route where
  | raise (e : Exceptional)
  | access (b : Bank)
  deriving DecidableEq, Repr

/-- `TrapA64(b)` of R100: EL2 is enabled, AArch64, and the controlling bit is 1. -/
def trapA64 (cfg : Cfg) (env : Env) (b : Bool) : Bool :=
  env.el2Enabled && cfg.featAA64EL2 && !env.el2UsesAArch32 && b

/-- `TrapA32(b)` of R100: EL2 is enabled, AArch32, and the controlling bit is 1. -/
def trapA32 (cfg : Cfg) (env : Env) (b : Bool) : Bool :=
  env.el2Enabled && cfg.featAA32EL2 && env.el2UsesAArch32 && b

/-- The bit of HCR that controls an access in the given direction: TRVM or TVM (R46). -/
def Env.hcrControl (env : Env) (d : Direction) : Bool :=
  match d with
  | .read => env.hcrTRVM
  | .write => env.hcrTVM

/-- The bit of HCR_EL2 that controls an access in the given direction: TRVM or TVM (R46). -/
def Env.hcrEl2Control (env : Env) (d : Direction) : Bool :=
  match d with
  | .read => env.hcrEl2TRVM
  | .write => env.hcrEl2TVM

/-- The EL1 branch of R100 and R101 (R108). -/
def routeAtEl1 (d : Direction) (cfg : Cfg) (env : Env) : Route :=
  if trapA64 cfg env env.hstrEl2T2 then .raise (.aarch64SystemAccessTrapToEL2 0x03)
  else if trapA32 cfg env env.hstrT2 then .raise (.hypTrap 0x03)
  else if trapA64 cfg env (env.hcrEl2Control d) then .raise (.aarch64SystemAccessTrapToEL2 0x03)
  else if trapA32 cfg env (env.hcrControl d) then .raise (.hypTrap 0x03)
  else .access (mappedBank cfg env)

/-- The EL3 branch of R100 and R101: on a write, the lock-out of R109 comes first. -/
def routeAtEl3 (d : Direction) (env : Env) : Route :=
  if d = .write ∧ env.scrNS = false ∧ env.cp15SDisable = true then .raise .undefined
  else if d = .write ∧ env.scrNS = false ∧ env.cp15SDisable2 = true then .raise .undefined
  else if env.scrNS then .access .ttbcrNS
  else .access .ttbcrS

/-- The access pseudocode of R100 (read) and R101 (write), in the order of R102. -/
def routeAccess (d : Direction) (cfg : Cfg) (env : Env) : Route :=
  if cfg.featAA32EL1 then
    match env.el with
    | .el0 => .raise .undefined
    | .el1 => routeAtEl1 d cfg env
    | .el2 => .access (mappedBank cfg env)
    | .el3 => routeAtEl3 d env
  else .raise .undefined

/-! ### Exceptional outcomes -/

/-- Taking an exceptional outcome, for both accesses (R121 to R123, R127): the spec describes no entry, so the step has no
successor state; no state changes (D5, D6, log 13). The spec describes no return either (R128). -/
def raise (e : Exceptional) : Answer :=
  match e with
  | .undefined => .fault .undefined
  | .hypTrap code => .fault (.hypTrap code)
  | .aarch64SystemAccessTrapToEL2 code => .fault (.aarch64SystemAccessTrapToEL2 code)

/-! ### Fetching an instruction -/

/-- What a program counter is a multiple of in an instruction set (R72, log 7). -/
def MemoryModel.unit (mm : MemoryModel) (isa : Isa) : Nat :=
  match isa with
  | .a32 => mm.a32Unit
  | .t32 => mm.t32Unit

/-- The four bytes of the instruction at the program counter (R87), fetched without translation: the program counter is the
address in memory (log 15). `Machine/Fetch.lean` has the translated fetch. DESIGN CHOICE: a misaligned program counter stops it
before any byte is read, and then the first byte in address order that stops decides (log 15). -/
def fetch (s : State) : Except Fault (List Byte) :=
  if s.pc.toNat % s.env.memoryModel.unit s.isa = 0 then
    match s.isa with
    | .a32 => readUnit s.env.memoryModel s.mem s.pc 4
    | .t32 =>
      match readUnit s.env.memoryModel s.mem s.pc 2 with
      | .error e => .error e
      | .ok lower =>
        match readUnit s.env.memoryModel s.mem (s.pc + 2) 2 with
        | .error e => .error e
        | .ok upper => .ok (lower ++ upper)
  else .error (.pcMisaligned s.pc)

/-- A program counter rounded down to a multiple of `unit`. -/
def alignDown (unit : Nat) (pc : Word) : Word :=
  BitVec.ofNat 32 (pc.toNat - pc.toNat % unit)

end Sys2Proof.Machine
end

