-- ==== Sys2Proof/Machine/SysReg.lean ====
section
/-! DEFINITION. The meanings of the two access instructions (R100, R101). -/

namespace Sys2Proof.Machine

/-- MRC p15, 0, <Rt>, c2, c0, 2 (R100): the value of the storage reached goes to `R[t]`. -/
def execMrcTtbcr (f : Form) (t : Reg) (s : State) : Answer :=
  gated f t s
    (match routeAccess .read s.cfg s.env with
     | .raise e => raise e
     | .access b => .next (s.writeReg t (s.readBank b)).advancePc)

/-- MCR p15, 0, <Rt>, c2, c0, 2 (R101): all 32 bits of `R[t]` go to the storage reached. -/
def execMcrTtbcr (f : Form) (t : Reg) (s : State) : Answer :=
  gated f t s
    (match routeAccess .write s.cfg s.env with
     | .raise e => raise e
     | .access b => .next (s.writeBank b (s.readReg t)).advancePc)

end Sys2Proof.Machine
end

