-- ==== Sys2Proof/Machine/Dispatch.lean ====
section
/-! DEFINITION. One arm per instruction. -/

namespace Sys2Proof.Machine

def exec (i : Instr) (s : State) : Host.Outcome State Fault Refusal :=
  match i with
  | .mrcTtbcr f t => Sys2Proof.Machine.execMrcTtbcr f t s
  | .mcrTtbcr f t => Sys2Proof.Machine.execMcrTtbcr f t s

end Sys2Proof.Machine
end

