-- ==== Sys2Proof/Machine/Translation.lean ====
section
/-! DEFINITION. What TTBCR's fields control in stage 1 PL1&0 translation (R60 to R70). -/

namespace Sys2Proof.Machine

/-! ### The parts of a walk that TTBCR settles -/

/-- The name in force for a translation (R60, D16). PRESUMED (log 19). -/
def inForceBank (cfg : Cfg) (env : Env) (sec : Security) : Bank :=
  if el3IsAArch32 cfg env then
    match sec with
    | .secure => .ttbcrS
    | .nonSecure => .ttbcrNS
  else .ttbcr

/-- The low bit of the TTBR0 base address field, `14 - N` (R63). -/
def ttbr0LowBit (n : BitVec 3) : Nat := 14 - n.toNat

/-- `TTBR0[31:14-N] : zeros(14-N)` (R63). -/
def ttbr0Base (n : BitVec 3) (ttbr0 : BitVec 64) : Word :=
  (ttbr0.setWidth 32 >>> ttbr0LowBit n) <<< ttbr0LowBit n

/-- The contents of one TTBR. -/
def State.ttbr (s : State) (x : TtbrNum) : BitVec 64 :=
  match x with
  | .ttbr0 => s.ttbr0
  | .ttbr1 => s.ttbr1

/-- TTBCR2 for every purpose but reading and writing it (R67): zero unless enabled. -/
def ttbcr2InUse (cfg : Cfg) (v ttbcr2 : Word) : Word :=
  if ttbcr2Enabled cfg v then ttbcr2 else 0

/-- The TTBR that defines the ASID (R28, R66). -/
def asidTtbr (v : Word) : TtbrNum :=
  if (LongFields.ofWord v).a1 == 1 then .ttbr1 else .ttbr0

/-- The SH field of a TTBR (R65). -/
def shField (v : Word) (x : TtbrNum) : BitVec 2 :=
  match x with
  | .ttbr0 => (LongFields.ofWord v).sh0
  | .ttbr1 => (LongFields.ofWord v).sh1

/-- The T0SZ or T1SZ field, whichever goes with a TTBR (R30, R38). -/
def tszField (v : Word) (x : TtbrNum) : BitVec 3 :=
  match x with
  | .ttbr0 => (LongFields.ofWord v).t0sz
  | .ttbr1 => (LongFields.ofWord v).t1sz

/-- The ORGN field of a TTBR (R65). -/
def orgnField (v : Word) (x : TtbrNum) : BitVec 2 :=
  match x with
  | .ttbr0 => (LongFields.ofWord v).orgn0
  | .ttbr1 => (LongFields.ofWord v).orgn1

/-- The IRGN field of a TTBR (R65). -/
def irgnField (v : Word) (x : TtbrNum) : BitVec 2 :=
  match x with
  | .ttbr0 => (LongFields.ofWord v).irgn0
  | .ttbr1 => (LongFields.ofWord v).irgn1

/-- The attributes of a walk in the EAE == 1 format: none when the SH field holds its reserved value (R65). -/
def walkAttributes (v : Word) (x : TtbrNum) : Option WalkAttributes :=
  match shareability (shField v x) with
  | none => none
  | some sh => some { shareability := sh, outer := cacheability (orgnField v x), inner := cacheability (irgnField v x) }

/-- The region an address lies in (R62): by N in the EAE == 0 format, by T0SZ and T1SZ in the EAE == 1 format. -/
def selectTtbr (v va : Word) : Region :=
  if eae v then Config.selectLong (LongFields.ofWord v).t0sz (LongFields.ofWord v).t1sz va
  else
    match Config.selectShort (ShortFields.ofWord v).n va with
    | .ttbr0 => .useTtbr0
    | .ttbr1 => .useTtbr1

/-! ### A translation request -/

/-- The base address of a walk in the EAE == 0 format (R48, R63, log 26). -/
def shortBase (s : State) (v : Word) (x : TtbrNum) : BitVec 64 :=
  match x with
  | .ttbr0 => (ttbr0Base (ShortFields.ofWord v).n s.ttbr0).setWidth 64
  | .ttbr1 => Config.ttbrBase .shortDescriptor .ttbr1 (ShortFields.ofWord v).n s.ttbr1

/-- A walk in the EAE == 0 format (R63, R65, R66). -/
def shortWalk (s : State) (v va : Word) (x : TtbrNum) : Walk :=
  { va := va, ttbr := x, format := .shortDescriptor,
    base := shortBase s v x,
    tableSize := match x with | .ttbr0 => some (Config.ttbr0TableSize (ShortFields.ofWord v).n) | .ttbr1 => none,
    attributes := none, asid := none, ttbcr2 := ttbcr2InUse s.cfg v s.ttbcr2 }

/-- A walk in the EAE == 1 format with the given attributes (R48, R65 to R67; the base address is open, log 26). -/
def longWalk (s : State) (v va : Word) (x : TtbrNum) (attrs : WalkAttributes) : Walk :=
  { va := va, ttbr := x, format := .longDescriptor,
    base := Config.ttbrBase .longDescriptor x (tszField v x) (s.ttbr x), tableSize := none, attributes := some attrs,
    asid := some (asidTtbr v, Config.ttbrAsid (asidTtbr v) (s.ttbr (asidTtbr v))), ttbcr2 := ttbcr2InUse s.cfg v s.ttbcr2 }

/-- A walk through a TTBR whose walks are enabled; the reserved Shareability is refused at the walk that would use it
(D19, log 25). -/
def walkThrough (s : State) (v va : Word) (x : TtbrNum) : Resolution :=
  match tableFormat v with
  | .shortDescriptor => .walk (shortWalk s v va x)
  | .longDescriptor =>
    match walkAttributes v x with
    | none => .reservedShareability x
    | some attrs => .walk (longWalk s v va x attrs)

/-- An address translated using TTBRX that misses in the TLB (R64). -/
def missThrough (s : State) (v va : Word) (x : TtbrNum) : Resolution :=
  if walkDisabled v x then .translationFault va x else walkThrough s v va x

/-- What a translation of `va` under the TTBCR value `v` comes to, before bit [30] has its say (R62, R64). -/
def resolvePlain (s : State) (v va : Word) : Resolution :=
  if va ∈ s.tlb then .cached va
  else
    match selectTtbr v va with
    | .useTtbr0 => missThrough s v va .ttbr0
    | .useTtbr1 => missThrough s v va .ttbr1
    | .noRegion => .noRegion va

/-- What a translation of `va` under the TTBCR value `v` comes to: a set bit [30] of the EAE == 1 format may make anything
of it (R23, D15, log 24). -/
def resolve (s : State) (v va : Word) : Resolution :=
  if eae v && (LongFields.ofWord v).impl == 1 then Config.impdef30 (resolvePlain s v va) else resolvePlain s v va

/-- The value a translation uses: the current one, or one that was current since the last context synchronization event
(R148, D12). A `choice` past the end is the current one. -/
def Ttbcr.pick (x : Ttbcr) (choice : Nat) : Word :=
  (x.value :: x.stale).getD choice x.value

/-- What the machine does with a resolution: a walk and a cached translation are handed to the enclosing PE, the Translation
faults stop (R124, D6), and the reserved Shareability is refused (D19). PRESUMED: an address in no region generates a
Translation fault, of no TTBR, as R70 has it from general knowledge (log 23). -/
def settle (s : State) (r : Resolution) : Answer :=
  match r with
  | .cached va => .next { s with lastTranslation := some (.cached va) }
  | .walk w => .next { s with lastTranslation := some (.walk w) }
  | .translationFault va x => .fault (.translationFault va (some x))
  | .noRegion va => .fault (.translationFault va none)
  | .reservedShareability x => .refused (.reservedShareability x)

/-- A translation request of the stage 1 PL1&0 regime (R60, R64). DESIGN CHOICE: the storage in force controls it without
FEAT_AA32EL1 as well, of which the spec says nothing (R2, log 36). -/
def translate (sec : Security) (va : Word) (choice : Nat) (s : State) : Answer :=
  settle s (resolve s ((s.bank (inForceBank s.cfg s.env sec)).pick choice) va)

/-! ### The candidates for the selection functions and the tables, from general knowledge (R69, R70)

Nothing else of the model uses these functions: `Config.selectShort`, `Config.selectLong` and `Config.ttbr0TableSize` stay
open (D14, log 23, log 26). -/

/-- R69: with N = 0 every address uses TTBR0; else an address whose top N bits are all 0 does. -/
def candidateSelectShort (n : BitVec 3) (va : Word) : TtbrNum :=
  if n = 0 ∨ va >>> (32 - n.toNat) = 0 then .ttbr0 else .ttbr1

/-- R69: the first-level table pointed to by TTBR0 has `2^(12-N)` four-byte entries. -/
def candidateTtbr0Entries (n : BitVec 3) : Nat := 2 ^ (12 - n.toNat)

/-- R69: the size in bytes of the table pointed to by TTBR0. -/
def candidateTtbr0TableSize (n : BitVec 3) : Nat := 4 * candidateTtbr0Entries n

/-- R69: the table pointed to by TTBR1 has the size of N = 0, whatever N is. -/
def candidateTtbr1TableSize : Nat := candidateTtbr0TableSize 0

/-- R69: the base of the table pointed to by TTBR1 is `TTBR1[31:14]` over zeros, as with N = 0. -/
def candidateTtbr1Base (ttbr1 : BitVec 64) : Word := ttbr0Base 0 ttbr1

/-- R70: the size in bytes of the region that a TTBR with the given T0SZ or T1SZ translates. -/
def candidateRegionSize (tsz : BitVec 3) : Nat := 2 ^ (32 - tsz.toNat)

/-- R70: the four cases on T0SZ and T1SZ being zero or not. -/
def candidateSelectLong (t0sz t1sz : BitVec 3) (va : Word) : Region :=
  if t0sz = 0 ∧ t1sz = 0 then .useTtbr0
  else if t1sz = 0 then (if va.toNat < candidateRegionSize t0sz then .useTtbr0 else .useTtbr1)
  else if t0sz = 0 then (if 2 ^ 32 - candidateRegionSize t1sz ≤ va.toNat then .useTtbr1 else .useTtbr0)
  else if va.toNat < candidateRegionSize t0sz then .useTtbr0
  else if 2 ^ 32 - candidateRegionSize t1sz ≤ va.toNat then .useTtbr1
  else .noRegion

end Sys2Proof.Machine
end

