-- ==== Sys2Proof/Machine/Environment.lean ====
section
/-! DEFINITION. What the environment and the other agents do to the state: one operation per input (R140 to R152). -/

namespace Sys2Proof.Machine

/-! ### Reset (R140 to R145) -/

/-- A storage to which every stated reset value applies: the bits of `resetMask` are 0, the others a draw (R142). -/
def Ttbcr.resetAll (draw : Word) : Ttbcr :=
  { value := draw &&& ~~~resetMask, stale := [] }

/-- A storage in which EAE alone resets (R141): the other bits are a draw. -/
def Ttbcr.resetEae (draw : Word) : Ttbcr :=
  { value := draw &&& 0x7FFFFFFF#32, stale := [] }

/-- A storage for which the spec states no reset value: a draw (R143, R145). -/
def Ttbcr.resetNone (draw : Word) : Ttbcr :=
  { value := draw, stale := [] }

/-- The state after a reset, Warm or Cold (R144, D4, log 27). What no rule states is `draw`'s (D3): nothing at all of
TTBCR when the Exception level reset into is not using AArch32 (R145); after a reset into EL3 using AArch32, TTBCR_S takes
every stated value and TTBCR_NS only EAE; after a reset into another AArch32 level, TTBCR takes every stated value
(R141). DESIGN CHOICE: `aarch32` alone says whether the Exception level reset into is using AArch32; it is not held to the
draw's own `el2UsesAArch32` and `el3UsesAArch32`, the consistency of which D2 leaves to the model (log 28). -/
def resetArch (aarch32 : Bool) (draw : Arch) : Arch :=
  if aarch32 then
    match draw.env.el with
    | .el3 =>
      { draw with
        ttbcr := Ttbcr.resetNone draw.ttbcr.value
        ttbcrS := Ttbcr.resetAll draw.ttbcrS.value
        ttbcrNS := Ttbcr.resetEae draw.ttbcrNS.value }
    | _ =>
      { draw with
        ttbcr := Ttbcr.resetAll draw.ttbcr.value
        ttbcrS := Ttbcr.resetNone draw.ttbcrS.value
        ttbcrNS := Ttbcr.resetNone draw.ttbcrNS.value }
  else
    { draw with
      ttbcr := Ttbcr.resetNone draw.ttbcr.value
      ttbcrS := Ttbcr.resetNone draw.ttbcrS.value
      ttbcrNS := Ttbcr.resetNone draw.ttbcrNS.value }

/-! ### The other events -/

/-- The `Env` inputs take new values (R152). When the change makes EL1 and EL2 reach the other of the names TTBCR and
TTBCR_NS, that name holds a draw (D18, log 21). DESIGN CHOICE, where D12 and D18 are silent: of the values from before the
change, those of the name EL1 and EL2 reached before stay usable, for every translation that uses the name they reach now. So
where EL3 stops using AArch32 a Secure translation, which now uses TTBCR, can no longer use a value of TTBCR_S and may use
those of TTBCR_NS; where EL3 comes to use AArch32 it uses TTBCR_S, with the old values of that name alone (log 21). -/
def changeEnv (e : Env) (draw : Word) (s : State) : State :=
  if mappedBank s.cfg e = mappedBank s.cfg s.env then { s with env := e }
  else
    ({ s with env := e }).setBank (mappedBank s.cfg e)
      { value := draw, stale := (s.bank (mappedBank s.cfg s.env)).value :: (s.bank (mappedBank s.cfg s.env)).stale }

/-- A write of TCR_EL1 (R13, R151): bits [31:0] are a write of the mapped name. DESIGN CHOICE: TCR_EL1 and its mapping are there
in every `Cfg` and `Env`, on a PE without FEAT_AA64 and without FEAT_AA64EL2 as well, where the spec does not say that they
exist and D17 lets the mapping be left out (log 20). -/
def writeTcrEl1 (v : BitVec 64) (s : State) : State :=
  { s.writeBank (mappedBank s.cfg s.env) (v.setWidth 32) with tcrEl1Hi := v.extractLsb' 32 32 }

/-- After a context synchronization event every translation uses the current values (R148, D12). -/
def contextSync (s : State) : State :=
  { s with
    ttbcr := { s.ttbcr with stale := [] }
    ttbcrS := { s.ttbcrS with stale := [] }
    ttbcrNS := { s.ttbcrNS with stale := [] } }

/-- What an input other than `execute` and `executeTranslated` does; these two run an instruction, which is the step's
(R151, R152). A write of TTBR0, TTBR1 or TTBCR2 acts on the next translation (DESIGN CHOICE, log 37). -/
def applyInput (i : Input) (s : State) : Answer :=
  match i with
  | .execute => .next s
  | .executeTranslated _ _ _ => .next s
  | .environment e draw => .next (changeEnv e draw s)
  | .general t v => .next (s.writeReg t v)
  | .control isa pc => .next { s with isa := isa, pc := pc }
  | .status flags itCond => .next { s with flags := flags, itCond := itCond }
  | .writeTcrEl1 v => .next (writeTcrEl1 v s)
  | .writeTtbr0 v => .next { s with ttbr0 := v }
  | .writeTtbr1 v => .next { s with ttbr1 := v }
  | .writeTtbcr2 v => .next { s with ttbcr2 := v }
  | .contextSync => .next (contextSync s)
  | .tlbFill va => .next { s with tlb := Tlb.fill s.tlb va }
  | .tlbEvict va => .next { s with tlb := Tlb.evict s.tlb va }
  | .translate sec va choice => translate sec va choice s
  | .reset _ aarch32 draw => .next { s with toArch := resetArch aarch32 draw }

end Sys2Proof.Machine
end

