-- ==== Sys2Proof/Machine/Fetch.lean ====
section
/-! DEFINITION. Fetching an instruction, with and without translation (R60, R64, R78). -/

namespace Sys2Proof.Machine

/-- What a fetch comes to: the state after it and the bytes, or why it stops. -/
abbrev Fetched := Host.Outcome (State × List Byte) Fault Refusal

/-- The fetch that no translation changes (log 15). -/
def fetchPlain (s : State) : Fetched :=
  match fetch s with
  | .error f => .fault f
  | .ok bytes => .next (s, bytes)

/-- `n` bytes of instruction at the address `va`: one translation request of the regime, and the bytes at the address it
comes to (R78, log 15). A request that stops is a fetch that stops (R124). -/
def fetchUnit (sec : Security) (va : Word) (n : Nat) (d : FetchDraw) (s : State) : Fetched :=
  match translate sec va d.choice s with
  | .fault f => .fault f
  | .refused r => .refused r
  | .next u =>
    match readUnit u.env.memoryModel u.mem d.pa n with
    | .error f => .fault f
    | .ok bytes => .next (u, bytes)

/-- The four bytes of the instruction at the program counter, translated: an A32 word by one request, and each halfword of a
T32 instruction by its own (R78, R87, log 15). DESIGN CHOICE, where the spec gives no priority (R126, D11, N15): a misaligned
program counter stops the fetch before any request is made, and a first T32 halfword that stops, at its request or at its
bytes, does so before the second request is made (log 15). -/
def fetchTranslated (sec : Security) (first second : FetchDraw) (s : State) : Fetched :=
  if s.pc.toNat % s.env.memoryModel.unit s.isa = 0 then
    match s.isa with
    | .a32 => fetchUnit sec s.pc 4 first s
    | .t32 =>
      match fetchUnit sec s.pc 2 first s with
      | .fault f => .fault f
      | .refused r => .refused r
      | .next (u, lower) =>
        match fetchUnit sec (s.pc + 2) 2 second u with
        | .fault f => .fault f
        | .refused r => .refused r
        | .next (w, upper) => .next (w, lower ++ upper)
  else .fault (.pcMisaligned s.pc)

end Sys2Proof.Machine
end

