-- ==== Sys2Proof/Machine/Step.lean ====
section
/-! DEFINITION. One step of the machine, and placing an instruction where the next step fetches it. -/

namespace Sys2Proof.Machine

/-- The PE runs the instruction it has fetched (R87, R151 (a)). DESIGN CHOICE: a fetch that stops wins over every outcome of the
access itself, the failed condition among them; R126 leaves this priority out (N15, log 15). -/
def runFetched (f : Fetched) : Host.Outcome State Fault Refusal :=
  match f with
  | .fault r => .fault r
  | .refused r => .refused r
  | .next (s, bytes) =>
    match decode s.isa bytes with
    | .error e => .refused (.encoding e)
    | .ok i => exec i s

/-- One step: the head of the schedule acts; with an empty schedule the PE runs its next instruction (R151, R152,
log 3). -/
def step (s : State) : Host.Outcome State Fault Refusal :=
  match s.inputs with
  | [] => runFetched (fetchPlain s)
  | .execute :: rest => runFetched (fetchPlain { s with inputs := rest })
  | .executeTranslated sec first second :: rest => runFetched (fetchTranslated sec first second { s with inputs := rest })
  | i :: rest => applyInput i { s with inputs := rest }

/-- `s` with an opcode table word placed where the next step fetches: as the A32 word it is, at the program counter (rounded
down to what an A32 instruction's address is a multiple of), in the byte order of fetches, with every address in the map and
nothing scheduled before it (log 14). -/
def State.withFetchWord (s : State) (nbits w : Nat) : State :=
  { s with
    isa := .a32
    pc := alignDown s.env.memoryModel.a32Unit s.pc
    inputs := []
    env := { s.env with memoryModel := { s.env.memoryModel with absent := [] } }
    mem := Memory.writeBytes s.mem (alignDown s.env.memoryModel.a32Unit s.pc)
      (s.env.memoryModel.order (bytesOfWord .a32 (BitVec.ofNat 32 (w % 2 ^ nbits)))) }

end Sys2Proof.Machine
end

