-- ==== Sys2Proof/Safety.lean ====
section
/-! DEFINITION. The terms that claims use: the invariant of the state, the conditions of an access in the spec's own words,
and when a run has ended normally. -/

namespace Sys2Proof.Machine

/-- The data of an input is in the form State keeps: the draw of a reset has memory and TLB in canonical form. -/
def Input.wf (i : Input) : Bool :=
  match i with
  | .reset _ _ draw => decide (Memory.wf draw.mem ∧ Tlb.wf draw.tlb)
  | .execute => true
  | .executeTranslated _ _ _ => true
  | .environment _ _ => true
  | .general _ _ => true
  | .control _ _ => true
  | .status _ _ => true
  | .writeTcrEl1 _ => true
  | .writeTtbr0 _ => true
  | .writeTtbr1 _ => true
  | .writeTtbcr2 _ => true
  | .contextSync => true
  | .tlbFill _ => true
  | .tlbEvict _ => true
  | .translate _ _ _ => true

/-- The invariant that every step keeps: memory and the TLB are in canonical form, and so is the data of what is
scheduled. -/
abbrev State.Inv (s : State) : Prop :=
  Memory.wf s.mem ∧ Tlb.wf s.tlb ∧ ∀ i ∈ s.inputs, Input.wf i = true

/-- The consistency premises that D2 (`92_eei_decisions.md`) says a model may impose on `Cfg` and `Env`, for a PE that is
executing an AArch32 access at its Exception level. The model itself imposes none of them. -/
structure State.Consistent (s : State) : Prop where
  /-- `ELUsingAArch32(EL2)` implies `FEAT_AA32EL2`. -/
  el2AArch32 : s.env.el2UsesAArch32 = true → s.cfg.featAA32EL2 = true
  /-- `!ELUsingAArch32(EL2) && EL2Enabled()` implies `FEAT_AA64EL2`. -/
  el2AArch64 : s.env.el2UsesAArch32 = false → s.env.el2Enabled = true → s.cfg.featAA64EL2 = true
  /-- `ELUsingAArch32(EL3)` implies `HaveEL(EL3) && FEAT_AA32EL3`. -/
  el3AArch32 : s.env.el3UsesAArch32 = true → s.cfg.haveEL3 = true ∧ s.cfg.featAA32EL3 = true
  /-- Executing these instructions at EL3 implies `ELUsingAArch32(EL3)`. -/
  atEl3 : s.env.el = .el3 → s.env.el3UsesAArch32 = true
  /-- An implemented EL3 that is not using AArch32 is using AArch64, so FEAT_AA64 is implemented. DEDUCED: not among D2's
  premises; it is the meaning of `ELUsingAArch32` (log 20). -/
  el3AArch64 : s.cfg.haveEL3 = true → s.env.el3UsesAArch32 = false → s.cfg.featAA64 = true

/-- The direction of an instruction's access. -/
def direction (i : Instr) : Direction :=
  match i with
  | .mrcTtbcr _ _ => .read
  | .mcrTtbcr _ _ => .write

/-- The premise of R100 and R101: the register is admitted (R86) and the condition passed (R51). -/
def IsAccess (i : Instr) (s : State) : Prop :=
  i.wellFormed = true ∧ conditionPassed i.form s = true

/-- An access is trapped to an AArch64 EL2 (R108, R123, R129). -/
def TrappedToAArch64 (d : Direction) (s : State) : Prop :=
  s.cfg.featAA32EL1 = true ∧ s.env.el = .el1 ∧ s.env.el2Enabled = true ∧ s.cfg.featAA64EL2 = true ∧
    s.env.el2UsesAArch32 = false ∧
    (s.env.hstrEl2T2 = true ∨ (d = .read ∧ s.env.hcrEl2TRVM = true) ∨ (d = .write ∧ s.env.hcrEl2TVM = true))

/-- An access is trapped to an AArch32 EL2 (R108, R122, R129). -/
def TrappedToAArch32 (d : Direction) (s : State) : Prop :=
  s.cfg.featAA32EL1 = true ∧ s.env.el = .el1 ∧ s.env.el2Enabled = true ∧ s.cfg.featAA32EL2 = true ∧
    s.env.el2UsesAArch32 = true ∧
    (s.env.hstrT2 = true ∨ (d = .read ∧ s.env.hcrTRVM = true) ∨ (d = .write ∧ s.env.hcrTVM = true))

/-- A write is locked out of TTBCR_S (R109). -/
def LockedOut (d : Direction) (s : State) : Prop :=
  d = .write ∧ s.env.el = .el3 ∧ s.env.scrNS = false ∧ (s.env.cp15SDisable = true ∨ s.env.cp15SDisable2 = true)

/-- An access is UNDEFINED (R121). -/
def UndefinedAccess (d : Direction) (s : State) : Prop :=
  s.cfg.featAA32EL1 = false ∨ s.env.el = .el0 ∨ LockedOut d s

/-- `EL3isAArch32` of R103. -/
def El3IsAArch32 (s : State) : Prop :=
  s.cfg.haveEL3 = true ∧ s.cfg.featAA32EL3 = true ∧ s.env.el3UsesAArch32 = true

/-- The table of R103: the storage an access that is neither UNDEFINED nor trapped reaches. -/
def Reaches (s : State) (b : Bank) : Prop :=
  (s.env.el = .el1 ∧ El3IsAArch32 s ∧ b = .ttbcrNS) ∨
  (s.env.el = .el1 ∧ ¬ El3IsAArch32 s ∧ b = .ttbcr) ∨
  (s.env.el = .el2 ∧ El3IsAArch32 s ∧ b = .ttbcrNS) ∨
  (s.env.el = .el2 ∧ ¬ El3IsAArch32 s ∧ b = .ttbcr) ∨
  (s.env.el = .el3 ∧ s.env.scrNS = false ∧ b = .ttbcrS) ∨
  (s.env.el = .el3 ∧ s.env.scrNS = true ∧ b = .ttbcrNS)

/-- The RES0 positions, by number, in the format a value selects (R40). -/
def IsRes0 (cfg : Cfg) (v : Word) (i : Nat) : Prop :=
  (eae v = false ∧ ((6 ≤ i ∧ i ≤ 30) ∨ i = 3)) ∨
  (eae v = true ∧ ((19 ≤ i ∧ i ≤ 21) ∨ (14 ≤ i ∧ i ≤ 15) ∨ (3 ≤ i ∧ i ≤ 5) ∨ (i = 6 ∧ cfg.featAA32HPD = false)))

/-- The policy makes a position `hardwired_zero` in the format a value selects (R40). -/
def IsHardwired (cfg : Cfg) (v : Word) (i : Nat) : Prop :=
  (eae v = false ∧ cfg.res0Short.getLsbD i = true) ∨ (eae v = true ∧ cfg.res0Long.getLsbD i = true)

/-- Bit [30] of a value has no IMPLEMENTATION DEFINED effect: it is 0, or the format is EAE == 0 (R23, D15). -/
def NoImpdef (v : Word) : Prop :=
  eae v = false ∨ v.getLsbD 30 = false

/-- The region that is the addresses translated using TTBRX. -/
def regionOf (x : TtbrNum) : Region :=
  match x with
  | .ttbr0 => .useTtbr0
  | .ttbr1 => .useTtbr1

/-- The value a translation request uses (R60, R148). -/
def valueInUse (s : State) (sec : Security) (choice : Nat) : Word :=
  (s.bank (inForceBank s.cfg s.env sec)).pick choice

/-- A step is safe when it has a next state: R153 calls every other end of a run abnormal. -/
def Safe (a : Answer) : Prop :=
  ∃ t, a = .next t

/-- `n` steps of the machine, stopping at the first fault or refusal. -/
def run (n : Nat) (s : State) : Answer :=
  match n with
  | 0 => .next s
  | k + 1 =>
    match step s with
    | .next u => run k u
    | .fault r => .fault r
    | .refused r => .refused r

/-- An input that runs an instruction; every other input is an event of the environment (R151, R152). -/
def Input.runsInstruction (i : Input) : Bool :=
  match i with
  | .execute => true
  | .executeTranslated _ _ _ => true
  | .environment _ _ => false
  | .general _ _ => false
  | .control _ _ => false
  | .status _ _ => false
  | .writeTcrEl1 _ => false
  | .writeTtbr0 _ => false
  | .writeTtbr1 _ => false
  | .writeTtbcr2 _ => false
  | .contextSync => false
  | .tlbFill _ => false
  | .tlbEvict _ => false
  | .translate _ _ _ => false
  | .reset _ _ _ => false

/-- The next step of `s` runs an instruction: nothing is scheduled, or an input that runs one is at the head. -/
def State.runsInstruction (s : State) : Bool :=
  match s.inputs with
  | [] => true
  | i :: _ => i.runsInstruction

/-- The next step of `s` fetches `bytes`, and `u` is the state after the fetch: by one of the three ways a step fetches. -/
def Fetches (s u : State) (bytes : List Byte) : Prop :=
  (s.inputs = [] ∧ fetchPlain s = .next (u, bytes)) ∨
  (∃ rest, s.inputs = .execute :: rest ∧ fetchPlain { s with inputs := rest } = .next (u, bytes)) ∨
  (∃ sec first second rest, s.inputs = .executeTranslated sec first second :: rest ∧
    fetchTranslated sec first second { s with inputs := rest } = .next (u, bytes))

/-- An access instruction as a program lists it (R153): with any `Rt`, those that the decoder refuses among them (R86,
D8). -/
structure ListedAccess where
  form : Form
  dir : Direction
  rt : BitVec 4
  deriving DecidableEq, Repr

/-- An instruction as a program lists it. -/
def listed (i : Instr) : ListedAccess :=
  { form := i.form, dir := direction i, rt := Reg.bits i.rt }

/-- The bytes of a listed access, in the order `decode` takes them (R83, R84). -/
def ListedAccess.bytes (p : ListedAccess) : List Byte :=
  bytesOfWord p.form.isa
    (encodeTransfer p.form.topBits (match p.dir with | .read => 1 | .write => 0) p.rt SysReg.ttbcr)

/-- A register that the encoding does not admit (R86, D8). -/
def ListedAccess.isRefused (p : ListedAccess) : Prop :=
  p.rt = 15 ∨ (p.form = .t32 ∧ p.rt = 13)

/-- The next step of `s` is the listed access `p`: it fetches that instruction, whose condition passes (R153, D7). -/
def RunsAccess (s : State) (p : ListedAccess) : Prop :=
  ∃ u bytes i, Fetches s u bytes ∧ decode s.isa bytes = .ok i ∧ listed i = p ∧ IsAccess i s

/-- A run of the listed accesses, at addresses from `a` on, 4 apart, leads from `s` to `t` (R153): each access in turn
completes, any events of the environment may happen before each (R152), and the run ends with the last access. -/
inductive AccessRun : Word → List ListedAccess → State → State → Prop
  | ended (a : Word) (s : State) : AccessRun a [] s s
  | event (a : Word) (p : ListedAccess) (prog : List ListedAccess) (s u t : State) :
      s.runsInstruction = false → step s = .next u → AccessRun a (p :: prog) u t → AccessRun a (p :: prog) s t
  | access (a : Word) (p : ListedAccess) (prog : List ListedAccess) (s u t : State) :
      s.pc = a → RunsAccess s p → step s = .next u → AccessRun (a + 4) prog u t → AccessRun a (p :: prog) s t

/-- A run of the accesses `prog` at `a` has ended normally in `t`: the last of them has completed, and the program counter
is the address after it (R153). -/
def EndedNormally (a : Word) (prog : List ListedAccess) (s t : State) : Prop :=
  AccessRun a prog s t ∧ t.pc = a + BitVec.ofNat 32 (4 * prog.length)

/-- The access `p` stands where the next step of `s` fetches: the bytes fetched are its encoding. It need not be one that the
decoder admits (R86, D8). -/
def FetchesAccess (s : State) (p : ListedAccess) : Prop :=
  ∃ u bytes, Fetches s u bytes ∧ p.form.isa = s.isa ∧ bytes.take 4 = p.bytes

/-- An outcome at which R153 ends a run: one of the three outcomes of an access, or a refusal of it. -/
def AccessStops (o : Answer) : Prop :=
  o = .fault .undefined ∨ o = .fault (.hypTrap 0x03) ∨ o = .fault (.aarch64SystemAccessTrapToEL2 0x03) ∨
    ∃ r, o = .refused r

/-- An outcome of a translation that has no state after it: the remaining exceptional outcome of R120, with the Translation
fault of an address in no region (R70, log 23), and the refusal of D19. -/
def TranslationStops (o : Answer) : Prop :=
  (∃ va x, o = .fault (.translationFault va x)) ∨ ∃ x, o = .refused (.reservedShareability x)

/-- A run of the accesses `prog` at `a` from `s` ends abnormally, at the first exceptional outcome or refusal (R153, D24): of
the access whose turn it is, which stands at its address, or of a translation, be it scheduled before that access or made for
its fetch. A fetch that reads no four bytes (log 7, log 8) is neither: no access has run. -/
inductive EndsAbnormally : Word → List ListedAccess → State → Prop
  | accessStops (a : Word) (p : ListedAccess) (prog : List ListedAccess) (s : State) :
      s.pc = a → FetchesAccess s p → AccessStops (step s) → EndsAbnormally a (p :: prog) s
  | translationStops (a : Word) (p : ListedAccess) (prog : List ListedAccess) (s : State) :
      (s.runsInstruction = true → s.pc = a) → TranslationStops (step s) → EndsAbnormally a (p :: prog) s
  | event (a : Word) (p : ListedAccess) (prog : List ListedAccess) (s u : State) :
      s.runsInstruction = false → step s = .next u → EndsAbnormally a (p :: prog) u → EndsAbnormally a (p :: prog) s
  | access (a : Word) (p : ListedAccess) (prog : List ListedAccess) (s u : State) :
      s.pc = a → RunsAccess s p → step s = .next u → EndsAbnormally (a + 4) prog u → EndsAbnormally a (p :: prog) s

end Sys2Proof.Machine
end

