-- ==== Sys2Proof/Certificates/Slice0/Obligations.lean ====
section
/-! DEFINITION. The statements for the provers. Each docstring names the rule of spec/ it formalises, or says that it is the
model's own. -/

open Sys2Proof Sys2Proof.Machine

/-! ### The two accesses -/

/-- R100: the encoding row of the read (its bit positions are R83's, which the spec marks as general knowledge: log 29), and
the read pseudocode, branch by branch, for an admitted read whose condition passed. It writes `R[t]` and nothing else; where
the program counter goes is R110's, and not stated here. -/
def Obligations.MrcFollowsTheReadPseudocode : Prop :=
  (∀ (c : Cond) (t : Reg),
    decodeWord .a32 (Cond.bits c ++ 0b1110#4 ++ 0b000#3 ++ 0b1#1 ++ 0b0010#4 ++ Reg.bits t ++ 0b1111#4 ++ 0b010#3 ++ 0b1#1
      ++ 0b0000#4) = .ok (.mrcTtbcr (.a32 c) t)) ∧
  ∀ (f : Form) (t : Reg) (s : State), IsAccess (.mrcTtbcr f t) s →
    ∃ pc : Word, exec (.mrcTtbcr f t) s =
      if s.cfg.featAA32EL1 = false then .fault .undefined
      else if s.env.el = .el0 then .fault .undefined
      else if s.env.el = .el1 then
        if s.env.el2Enabled = true ∧ s.cfg.featAA64EL2 = true ∧ s.env.el2UsesAArch32 = false ∧ s.env.hstrEl2T2 = true then
          .fault (.aarch64SystemAccessTrapToEL2 0x03)
        else if s.env.el2Enabled = true ∧ s.cfg.featAA32EL2 = true ∧ s.env.el2UsesAArch32 = true ∧ s.env.hstrT2 = true then
          .fault (.hypTrap 0x03)
        else if s.env.el2Enabled = true ∧ s.cfg.featAA64EL2 = true ∧ s.env.el2UsesAArch32 = false ∧ s.env.hcrEl2TRVM = true then
          .fault (.aarch64SystemAccessTrapToEL2 0x03)
        else if s.env.el2Enabled = true ∧ s.cfg.featAA32EL2 = true ∧ s.env.el2UsesAArch32 = true ∧ s.env.hcrTRVM = true then
          .fault (.hypTrap 0x03)
        else if s.cfg.haveEL3 = true ∧ s.cfg.featAA32EL3 = true ∧ s.env.el3UsesAArch32 = true then
          .next { s.writeReg t (readValue s.cfg s.ttbcrNS.value) with pc := pc }
        else .next { s.writeReg t (readValue s.cfg s.ttbcr.value) with pc := pc }
      else if s.env.el = .el2 then
        if s.cfg.haveEL3 = true ∧ s.cfg.featAA32EL3 = true ∧ s.env.el3UsesAArch32 = true then
          .next { s.writeReg t (readValue s.cfg s.ttbcrNS.value) with pc := pc }
        else .next { s.writeReg t (readValue s.cfg s.ttbcr.value) with pc := pc }
      else
        if s.env.scrNS = false then .next { s.writeReg t (readValue s.cfg s.ttbcrS.value) with pc := pc }
        else .next { s.writeReg t (readValue s.cfg s.ttbcrNS.value) with pc := pc }

/-- R101: the encoding row of the write (its bit positions are R83's, general knowledge: log 29), and the write pseudocode,
branch by branch, for an admitted write whose condition passed. It writes one storage and nothing else; the value replaced
joins those a translation may still use (R148, log 18), and where the program counter goes is R110's, not stated here. -/
def Obligations.McrFollowsTheWritePseudocode : Prop :=
  (∀ (c : Cond) (t : Reg),
    decodeWord .a32 (Cond.bits c ++ 0b1110#4 ++ 0b000#3 ++ 0b0#1 ++ 0b0010#4 ++ Reg.bits t ++ 0b1111#4 ++ 0b010#3 ++ 0b1#1
      ++ 0b0000#4) = .ok (.mcrTtbcr (.a32 c) t)) ∧
  ∀ (f : Form) (t : Reg) (s : State), IsAccess (.mcrTtbcr f t) s →
    ∃ pc : Word, exec (.mcrTtbcr f t) s =
      if s.cfg.featAA32EL1 = false then .fault .undefined
      else if s.env.el = .el0 then .fault .undefined
      else if s.env.el = .el1 then
        if s.env.el2Enabled = true ∧ s.cfg.featAA64EL2 = true ∧ s.env.el2UsesAArch32 = false ∧ s.env.hstrEl2T2 = true then
          .fault (.aarch64SystemAccessTrapToEL2 0x03)
        else if s.env.el2Enabled = true ∧ s.cfg.featAA32EL2 = true ∧ s.env.el2UsesAArch32 = true ∧ s.env.hstrT2 = true then
          .fault (.hypTrap 0x03)
        else if s.env.el2Enabled = true ∧ s.cfg.featAA64EL2 = true ∧ s.env.el2UsesAArch32 = false ∧ s.env.hcrEl2TVM = true then
          .fault (.aarch64SystemAccessTrapToEL2 0x03)
        else if s.env.el2Enabled = true ∧ s.cfg.featAA32EL2 = true ∧ s.env.el2UsesAArch32 = true ∧ s.env.hcrTVM = true then
          .fault (.hypTrap 0x03)
        else if s.cfg.haveEL3 = true ∧ s.cfg.featAA32EL3 = true ∧ s.env.el3UsesAArch32 = true then
          .next { s with ttbcrNS := ⟨s.readReg t, s.ttbcrNS.value :: s.ttbcrNS.stale⟩, pc := pc }
        else .next { s with ttbcr := ⟨s.readReg t, s.ttbcr.value :: s.ttbcr.stale⟩, pc := pc }
      else if s.env.el = .el2 then
        if s.cfg.haveEL3 = true ∧ s.cfg.featAA32EL3 = true ∧ s.env.el3UsesAArch32 = true then
          .next { s with ttbcrNS := ⟨s.readReg t, s.ttbcrNS.value :: s.ttbcrNS.stale⟩, pc := pc }
        else .next { s with ttbcr := ⟨s.readReg t, s.ttbcr.value :: s.ttbcr.stale⟩, pc := pc }
      else
        if s.env.scrNS = false ∧ s.env.cp15SDisable = true then .fault .undefined
        else if s.env.scrNS = false ∧ s.env.cp15SDisable2 = true then .fault .undefined
        else if s.env.scrNS = false then
          .next { s with ttbcrS := ⟨s.readReg t, s.ttbcrS.value :: s.ttbcrS.stale⟩, pc := pc }
        else .next { s with ttbcrNS := ⟨s.readReg t, s.ttbcrNS.value :: s.ttbcrNS.stale⟩, pc := pc }

/-- The table of R103, and where both instructions complete: an access that is neither UNDEFINED nor trapped answers the
next state in which the storage of the table is copied to `R[t]` (read) or replaced by `R[t]` (write); an access at EL0
reaches none. The advance of the program counter by 4 is R110's, which the spec takes from general knowledge (D10). That the
replaced value joins those a translation may still use follows R148 and D12 in the form of log 18. -/
def Obligations.AccessesCompleteOnTheTabulatedInstance : Prop :=
  ∀ (f : Form) (t : Reg) (s : State), f.admits t = true → conditionPassed f s = true →
    (∀ b, Reaches s b → s.cfg.featAA32EL1 = true →
      (¬ TrappedToAArch64 .read s → ¬ TrappedToAArch32 .read s →
        exec (.mrcTtbcr f t) s = .next (s.writeReg t (readValue s.cfg (s.bank b).value)).advancePc) ∧
      (¬ TrappedToAArch64 .write s → ¬ TrappedToAArch32 .write s → ¬ LockedOut .write s →
        exec (.mcrTtbcr f t) s =
          .next (s.setBank b ⟨s.readReg t, (s.bank b).value :: (s.bank b).stale⟩).advancePc)) ∧
    (s.env.el = .el0 →
      exec (.mrcTtbcr f t) s = .fault .undefined ∧ exec (.mcrTtbcr f t) s = .fault .undefined ∧ ∀ b, ¬ Reaches s b)

/-- R106 and R110, the frame of both instructions: the read changes `R[t]` and the program counter alone, the write the one
selected storage and the program counter alone; no byte of memory, flag, companion register or part of the environment
changes. The advance by 4 is R110's, general knowledge (D10). The statement covers an instruction whose condition fails as well:
that it advances the program counter by 4 and changes nothing else is the model's choice (log 10), which D7 leaves outside the
spec. -/
def Obligations.AccessesChangeNothingElse : Prop :=
  ∀ (i : Instr) (s u : State), exec i s = .next u →
    u.pc = s.pc + 4 ∧ u.isa = s.isa ∧ u.flags = s.flags ∧ u.itCond = s.itCond ∧ u.env = s.env ∧ u.ttbr0 = s.ttbr0 ∧
    u.ttbr1 = s.ttbr1 ∧ u.ttbcr2 = s.ttbcr2 ∧ u.tcrEl1Hi = s.tcrEl1Hi ∧ u.tlb = s.tlb ∧
    u.lastTranslation = s.lastTranslation ∧ u.cfg = s.cfg ∧ u.inputs = s.inputs ∧
    (∀ a : Word, u.readByte a = s.readByte a) ∧
    (∀ f t, i = .mrcTtbcr f t → (∀ r, r ≠ t → u.readReg r = s.readReg r) ∧ ∀ b, u.bank b = s.bank b) ∧
    (∀ f t, i = .mcrTtbcr f t → (∀ r, u.readReg r = s.readReg r) ∧ ∀ b, ¬ Reaches s b → u.bank b = s.bank b)

/-- R106 again, what the accesses read: an access reads its register, the `Cfg` and `Env` parameters and the one selected
storage alone. Two states that agree on these answer alike, whatever their memories, flags, companion registers, other
registers and other storages hold. -/
def Obligations.AccessesReadNothingElse : Prop :=
  ∀ (i : Instr) (s v : State), IsAccess i s → IsAccess i v → s.cfg = v.cfg → s.env = v.env →
    s.readReg i.rt = v.readReg i.rt → (∀ b, Reaches s b → (s.bank b).value = (v.bank b).value) →
    (∀ r, exec i s = .fault r → exec i v = .fault r) ∧
    (∀ u, exec i s = .next u → ∃ w, exec i v = .next w ∧ u.readReg i.rt = w.readReg i.rt ∧
      ∀ b, Reaches s b → (u.bank b).value = (w.bank b).value)

/-- R6 with D11: neither access reads `MemoryModel`. With another memory model the answer is the same, and the state it leaves
differs in the memory model alone. -/
def Obligations.AccessesDoNotReadTheMemoryModel : Prop :=
  ∀ (i : Instr) (s : State) (mm : MemoryModel),
    (∀ u, exec i s = .next u →
      exec i { s with env := { s.env with memoryModel := mm } } = .next { u with env := { u.env with memoryModel := mm } }) ∧
    (∀ r, exec i s = .fault r → exec i { s with env := { s.env with memoryModel := mm } } = .fault r) ∧
    (∀ r, exec i s = .refused r → exec i { s with env := { s.env with memoryModel := mm } } = .refused r)

/-- R107: both accesses are UNDEFINED at EL0 whatever the trap controls, the Security state and the lock-out are. -/
def Obligations.AccessesAreUndefinedAtEl0 : Prop :=
  ∀ (i : Instr) (s : State), IsAccess i s → s.env.el = .el0 →
    exec i s = .fault .undefined ∧ exec i s ≠ .fault (.hypTrap 0x03) ∧
      exec i s ≠ .fault (.aarch64SystemAccessTrapToEL2 0x03)

/-- R2: without FEAT_AA32EL1 direct accesses to TTBCR are UNDEFINED, at every Exception level. -/
def Obligations.AccessesAreUndefinedWithoutFeatAA32EL1 : Prop :=
  ∀ (i : Instr) (s : State), IsAccess i s → s.cfg.featAA32EL1 = false → exec i s = .fault .undefined

/-- R121: exactly when an access is UNDEFINED. -/
def Obligations.UndefinedExactlyWhen : Prop :=
  ∀ (i : Instr) (s : State), IsAccess i s → (exec i s = .fault .undefined ↔ UndefinedAccess (direction i) s)

/-- R122: exactly when an access takes the Hyp trap, and with which code. -/
def Obligations.HypTrapExactlyWhen : Prop :=
  ∀ (i : Instr) (s : State) (code : Nat), IsAccess i s →
    (exec i s = .fault (.hypTrap code) ↔ code = 0x03 ∧ TrappedToAArch32 (direction i) s)

/-- R123: exactly when an access is trapped to an AArch64 EL2, and with which code. -/
def Obligations.AArch64TrapExactlyWhen : Prop :=
  ∀ (i : Instr) (s : State) (code : Nat), IsAccess i s →
    (exec i s = .fault (.aarch64SystemAccessTrapToEL2 code) ↔ code = 0x03 ∧ TrappedToAArch64 (direction i) s)

/-- R126: an access has one outcome. It completes, or it is UNDEFINED, or it takes one of the two traps; the conditions of
these exclude each other, and it never answers a Translation fault or a refusal. -/
def Obligations.AnAccessHasOneOutcome : Prop :=
  ∀ (i : Instr) (s : State), IsAccess i s →
    (Safe (exec i s) ↔
      ¬ UndefinedAccess (direction i) s ∧ ¬ TrappedToAArch32 (direction i) s ∧ ¬ TrappedToAArch64 (direction i) s) ∧
    ¬ (UndefinedAccess (direction i) s ∧ TrappedToAArch32 (direction i) s) ∧
    ¬ (UndefinedAccess (direction i) s ∧ TrappedToAArch64 (direction i) s) ∧
    ¬ (TrappedToAArch32 (direction i) s ∧ TrappedToAArch64 (direction i) s) ∧
    (∀ va x, exec i s ≠ .fault (.translationFault va x)) ∧ (∀ r, exec i s ≠ .refused r)

/-- R109: a write at EL3 with SCR.NS == '0' is UNDEFINED while either signal is HIGH; the lock-out touches no write with
SCR.NS == '1', no write at EL1 or EL2, and no read. -/
def Obligations.SecureWriteLockout : Prop :=
  (∀ (f : Form) (t : Reg) (s : State), IsAccess (.mcrTtbcr f t) s → s.env.el = .el3 → s.env.scrNS = false →
    (s.env.cp15SDisable = true ∨ s.env.cp15SDisable2 = true) → exec (.mcrTtbcr f t) s = .fault .undefined) ∧
  (∀ (i : Instr) (s : State) (d d2 : Bool), (direction i = .read ∨ s.env.el ≠ .el3 ∨ s.env.scrNS = true) →
    (∀ u, exec i s = .next u →
      exec i { s with env := { s.env with cp15SDisable := d, cp15SDisable2 := d2 } } =
        .next { u with env := { u.env with cp15SDisable := d, cp15SDisable2 := d2 } }) ∧
    (∀ r, exec i s = .fault r →
      exec i { s with env := { s.env with cp15SDisable := d, cp15SDisable2 := d2 } } = .fault r))

/-- R105, R40 (b): a read that follows a write through the same environment returns, bit for bit, what was written, but for
RES0 positions (judged in the format of the value written) that the policy makes `hardwired_zero`: those read 0. No written
value makes the write itself fail. The policy is the parameter of R40, the spec's own decision (D1), in the form of log 4, and
that a read sees the write at once is D12 (a), of R148. -/
def Obligations.ReadReturnsTheWrittenBits : Prop :=
  ∀ (f g : Form) (t r : Reg) (s u : State), IsAccess (.mcrTtbcr f t) s → exec (.mcrTtbcr f t) s = .next u →
    (∀ w, IsAccess (.mrcTtbcr g r) u → exec (.mrcTtbcr g r) u = .next w →
      ∀ i : Nat, i < 32 →
        (IsRes0 s.cfg (s.readReg t) i ∧ IsHardwired s.cfg (s.readReg t) i → (w.readReg r).getLsbD i = false) ∧
        (¬ (IsRes0 s.cfg (s.readReg t) i ∧ IsHardwired s.cfg (s.readReg t) i) →
          (w.readReg r).getLsbD i = (s.readReg t).getLsbD i)) ∧
    (∀ x : Word, Safe (exec (.mcrTtbcr f t) (s.writeReg t x)))

/-- The model's choice (log 10; D7 and G21 of the spec's own decisions): an admitted instruction whose condition fails only
advances the program counter, in every state, and at EL0 too. -/
def Obligations.FailedConditionOnlyAdvances : Prop :=
  ∀ (i : Instr) (s : State), i.wellFormed = true → conditionPassed i.form s = false →
    exec i s = .next { s with pc := s.pc + 4 }

/-- D2's premises give what R103 says of the EL3 rows: the storage an access reaches is one the implementation has (R11). -/
def Obligations.TheInstanceReachedExists : Prop :=
  ∀ (s : State) (b : Bank), s.Consistent → Reaches s b → hasBank s.cfg b = true

/-! ### Encodings -/

/-- Decoding the encoding of a well-formed instruction gives it back, whatever bytes follow. The layouts are the spec's
general knowledge (log 29) and the byte order is the model's (log 9). -/
def Obligations.DecodeOfEncodeIsTheInstruction : Prop :=
  ∀ (i : Instr) (rest : List Byte), i.wellFormed = true → decode i.form.isa (encodeBytes i ++ rest) = .ok i

/-- An instruction has one encoding: bytes that decode to `i` begin with the encoding of `i`, and `i` is well formed and
belongs to the instruction set decoded. -/
def Obligations.EncodeOfDecodeIsTheBytes : Prop :=
  ∀ (isa : Isa) (bytes : List Byte) (i : Instr), decode isa bytes = .ok i →
    i.wellFormed = true ∧ i.form.isa = isa ∧ encodeBytes i = bytes.take 4

/-- R83, general knowledge in the spec (log 29): in A32 the mask 0x0FFF0FFF with the match values 0x0E120F50 and 0x0E020F50
tells the two instructions, bits [31:28] are `cond` and bits [15:12] are `Rt`. -/
def Obligations.A32WordsAreToldByMaskAndMatch : Prop :=
  ∀ (w : Word) (c : Cond) (t : Reg),
    (decodeWord .a32 w = .ok (.mrcTtbcr (.a32 c) t) ↔
      w &&& 0x0FFF0FFF#32 = 0x0E120F50#32 ∧ w.extractLsb' 28 4 = Cond.bits c ∧ (w.extractLsb' 12 4).toNat = t.val) ∧
    (decodeWord .a32 w = .ok (.mcrTtbcr (.a32 c) t) ↔
      w &&& 0x0FFF0FFF#32 = 0x0E020F50#32 ∧ w.extractLsb' 28 4 = Cond.bits c ∧ (w.extractLsb' 12 4).toNat = t.val)

/-- R84 and the T32 part of R86: the first halfword, at the lower address, is 0xEE12 or 0xEE02, and the second is Rt:0xF50,
with Rt neither 15 nor 13. The layout is general knowledge in the spec (log 29), and the byte order within a halfword is the
model's choice (log 9). -/
def Obligations.T32HalfwordsAreTold : Prop :=
  ∀ (b0 b1 b2 b3 : Byte) (t : Reg),
    (decode .t32 [b0, b1, b2, b3] = .ok (.mrcTtbcr .t32 t) ↔
      b1 ++ b0 = 0xEE12#16 ∧ (b3 ++ b2).extractLsb' 0 12 = 0xF50#12 ∧ ((b3 ++ b2).extractLsb' 12 4).toNat = t.val ∧ t ≠ 13) ∧
    (decode .t32 [b0, b1, b2, b3] = .ok (.mcrTtbcr .t32 t) ↔
      b1 ++ b0 = 0xEE02#16 ∧ (b3 ++ b2).extractLsb' 0 12 = 0xF50#12 ∧ ((b3 ++ b2).extractLsb' 12 4).toNat = t.val ∧ t ≠ 13)

/-- R86 with the spec's own decision D8 (log 12): an access word with Rt = 15 is refused in both instruction sets, and one
with Rt = 13 in T32; the meaning of a term that no word encodes is that refusal as well. -/
def Obligations.RestrictedRegistersAreRefused : Prop :=
  (∀ (top : BitVec 4) (l : BitVec 1), top ≠ 0b1111#4 →
    decodeWord .a32 (encodeTransfer top l 15 SysReg.ttbcr) = .error .rt15) ∧
  (∀ l : BitVec 1, decodeWord .t32 (encodeTransfer 0b1110#4 l 15 SysReg.ttbcr) = .error .rt15) ∧
  (∀ l : BitVec 1, decodeWord .t32 (encodeTransfer 0b1110#4 l 13 SysReg.ttbcr) = .error .rt13InT32) ∧
  (∀ s : State, exec (.mrcTtbcr .t32 13) s = .refused (.rtNotAdmitted 13) ∧
    exec (.mcrTtbcr .t32 13) s = .refused (.rtNotAdmitted 13))

/-- R86 (U8, log 32): an MRC or MCR of any other System register is refused under its name, in A32 and in T32. -/
def Obligations.OtherSystemRegistersAreRefused : Prop :=
  ∀ (t : BitVec 4) (l : BitVec 1) (r : SysReg), r ≠ SysReg.ttbcr →
    (∀ top : BitVec 4, top ≠ 0b1111#4 → decodeWord .a32 (encodeTransfer top l t r) = .error (.otherSystemRegister r)) ∧
    decodeWord .t32 (encodeTransfer 0b1110#4 l t r) = .error (.otherSystemRegister r)

/-- Words of section 2.8 of the test vectors, in both instruction sets. The spec gives words and halfwords; their bytes in
memory follow the model's byte order (log 9), and the layouts are general knowledge (log 29). -/
def Obligations.SampleWordsDecode : Prop :=
  decode .a32 [0x50#8, 0x0F#8, 0x12#8, 0xEE#8] = .ok (.mrcTtbcr (.a32 .al) 0) ∧
  decode .a32 [0x50#8, 0x1F#8, 0x02#8, 0xEE#8] = .ok (.mcrTtbcr (.a32 .al) 1) ∧
  decode .a32 [0x50#8, 0x5F#8, 0x02#8, 0x1E#8] = .ok (.mcrTtbcr (.a32 .ne) 5) ∧
  decode .t32 [0x12#8, 0xEE#8, 0x50#8, 0xEF#8] = .ok (.mrcTtbcr .t32 14)

/-! ### The step -/

/-- A step runs the instruction that it fetches (R87, R151 (a)). With an empty schedule it is exec of the instruction
decoded at the program counter; with `execute` at the head, exec of it on the state whose schedule is the rest; with
`executeTranslated` at the head, exec of the instruction the translated fetch reads, on the state after that fetch. The
schedule is the model's choice (log 3), and so is that the first two fetch without translation (log 15). -/
def Obligations.StepRunsTheDecodedInstruction : Prop :=
  ∀ (s : State) (bytes : List Byte) (i : Instr), decode s.isa bytes = .ok i →
    (fetch s = .ok bytes → s.inputs = [] → step s = exec i s) ∧
    (∀ rest, fetch s = .ok bytes → s.inputs = .execute :: rest → step s = exec i { s with inputs := rest }) ∧
    (∀ sec first second rest u, s.inputs = .executeTranslated sec first second :: rest →
      fetchTranslated sec first second { s with inputs := rest } = .next (u, bytes) → step s = exec i u)

/-- R71, R72 and R74 with D11, the fetch under any memory model of the enclosing PE, in the form of log 7, log 8, log 9 and
log 33, the model's own: at an address that its alignment admits, with the four bytes in its map and placed, the fetch has the
bytes of an A32 word, or of each T32 halfword, with the least significant first, whatever the byte order; at another address,
or where the map leaves the first byte out, it stops; that the first of these wins is the model's choice (log 15). -/
def Obligations.FetchFollowsTheMemoryModel : Prop :=
  ∀ s : State,
    (s.pc.toNat % s.env.memoryModel.unit s.isa = 0 →
      (∀ b0 b1 b2 b3 : Byte, (∀ k < 4, s.env.memoryModel.isAbsent (s.pc + BitVec.ofNat 32 k) = false) →
        s.readByte s.pc = some b0 → s.readByte (s.pc + 1) = some b1 → s.readByte (s.pc + 2) = some b2 →
        s.readByte (s.pc + 3) = some b3 →
        (s.isa = .a32 → fetch s =
          .ok (if s.env.memoryModel.bigEndian = true then [b3, b2, b1, b0] else [b0, b1, b2, b3])) ∧
        (s.isa = .t32 → fetch s =
          .ok (if s.env.memoryModel.bigEndian = true then [b1, b0, b3, b2] else [b0, b1, b2, b3]))) ∧
      (s.env.memoryModel.isAbsent s.pc = true → fetch s = .error (.fetchAbsent s.pc))) ∧
    (s.pc.toNat % s.env.memoryModel.unit s.isa ≠ 0 → fetch s = .error (.pcMisaligned s.pc))

/-- R78, R60, R64: a fetch scheduled as translated is a translation request of the regime. In A32, with the program counter a
miss in the region of TTBRX and walks through TTBRX disabled in the TTBCR value in use, it is the Translation fault, whatever
memory holds; with a TLB hit, or with walks through the selected TTBR enabled and no reserved Shareability, the instruction
run is the one at the address the translation comes to, which is any (the draw of log 15). Two things are the model's choice
(log 15), of which no rule speaks: that T32 makes one request for each halfword, the first halfword whole before the second,
and that a fetch that stops wins over UNDEFINED, the traps and a failed condition (R126, N15). -/
def Obligations.FetchesAreTranslatedInTheRegime : Prop :=
  ∀ (s : State) (sec : Security) (first second : FetchDraw) (rest : List Input),
    s.inputs = .executeTranslated sec first second :: rest →
    (∀ v, s.isa = .a32 → s.pc.toNat % s.env.memoryModel.a32Unit = 0 → valueInUse s sec first.choice = v → NoImpdef v →
      (∀ x, s.pc ∉ s.tlb → selectTtbr v s.pc = regionOf x → walkDisabled v x = true →
        step s = .fault (.translationFault s.pc (some x))) ∧
      (∀ bytes i,
        s.pc ∈ s.tlb ∨ (∃ x, selectTtbr v s.pc = regionOf x ∧ walkDisabled v x = false ∧
          (eae v = true → shField v x ≠ 0b01#2)) →
        readUnit s.env.memoryModel s.mem first.pa 4 = .ok bytes → decode .a32 bytes = .ok i →
        ∃ r, step s = exec i { s with inputs := rest, lastTranslation := some r })) ∧
    (s.isa = .t32 → s.pc.toNat % s.env.memoryModel.t32Unit = 0 →
      (∀ f, translate sec s.pc first.choice { s with inputs := rest } = .fault f → step s = .fault f) ∧
      (∀ u lower, translate sec s.pc first.choice { s with inputs := rest } = .next u →
        readUnit s.env.memoryModel s.mem first.pa 2 = .ok lower →
        (∀ f, translate sec (s.pc + 2) second.choice u = .fault f → step s = .fault f) ∧
        (∀ w upper i, translate sec (s.pc + 2) second.choice u = .next w →
          readUnit s.env.memoryModel s.mem second.pa 2 = .ok upper → decode .t32 (lower ++ upper) = .ok i → step s = exec i w)))

/-- Every step keeps memory, the TLB and the data of the schedule in canonical form. The forms are the model's own (log 8,
log 17, log 3), of state that R49 and R52 name. -/
def Obligations.EveryStepKeepsTheInvariant : Prop :=
  ∀ s t : State, s.Inv → step s = .next t → t.Inv

/-- The reset state meets the invariant, and has nothing in memory, in the TLB or on the schedule: the model's choice
(log 8, log 17, log 3). -/
def Obligations.ResetMeetsTheInvariant : Prop :=
  State.reset.Inv ∧ State.reset.mem = [] ∧ State.reset.tlb = [] ∧ State.reset.inputs = []

/-- R151 with the spec's decisions D23 and D18 (log 21): a storage of TTBCR changes in a step only by a completed MCR that
reaches it (and then to the register's value), by a TCR_EL1 write through the mapping, by a reset, or, where EL3's execution
state changes without a reset, for the name that becomes reachable. -/
def Obligations.OnlyTheNamedWritersChangeTtbcr : Prop :=
  ∀ (s t : State) (b : Bank), step s = .next t → (t.bank b).value ≠ (s.bank b).value →
    (∃ u bytes f r, Fetches s u bytes ∧ decode s.isa bytes = .ok (.mcrTtbcr f r) ∧ Reaches s b ∧
      (t.bank b).value = s.readReg r) ∨
    (∃ v rest, s.inputs = .writeTcrEl1 v :: rest ∧ b = mappedBank s.cfg s.env ∧ (t.bank b).value = v.setWidth 32) ∨
    (∃ k a d rest, s.inputs = .reset k a d :: rest) ∨
    (∃ e d rest, s.inputs = .environment e d :: rest ∧ mappedBank s.cfg e ≠ mappedBank s.cfg s.env ∧
      b = mappedBank s.cfg e ∧ (t.bank b).value = d)

/-- R6, R152 with D23: no step changes the configuration, and a step changes the `Env` inputs only by an `environment` or a
`reset` input. -/
def Obligations.CfgIsFixedAndEnvIsTheEnvironments : Prop :=
  ∀ s t : State, step s = .next t →
    t.cfg = s.cfg ∧
    (t.env ≠ s.env → (∃ d rest, s.inputs = .environment t.env d :: rest) ∨ ∃ k a d rest, s.inputs = .reset k a d :: rest)

/-- R130, R131: below EL3 no access changes TTBCR_S or learns it. Two states that differ in TTBCR_S alone answer alike,
and TTBCR_S stays as it was in each. -/
def Obligations.BelowEl3TtbcrSIsOutOfReach : Prop :=
  ∀ (i : Instr) (s : State) (x : Ttbcr), s.env.el ≠ .el3 →
    (∀ u, exec i s = .next u → u.ttbcrS = s.ttbcrS ∧ exec i { s with ttbcrS := x } = .next { u with ttbcrS := x }) ∧
    (∀ r, exec i s = .fault r → exec i { s with ttbcrS := x } = .fault r) ∧
    (∀ r, exec i s = .refused r → exec i { s with ttbcrS := x } = .refused r)

/-- R153, the spec's decision D24. A run of the listed accesses at `a`, with any events of the environment before each
(R152), that completes has ended normally, has not ended abnormally, and has one final state. A run of `n` instructions with
nothing scheduled that completes ends `4 n` further on, with the environment, memory and the TLB as they were (R110 and R106);
an instruction whose condition fails counts there, which is the model's choice (log 10). -/
def Obligations.CompletedRunsEndNormally : Prop :=
  (∀ (a : Word) (prog : List ListedAccess) (s t : State), prog ≠ [] → AccessRun a prog s t →
    EndedNormally a prog s t ∧ ¬ EndsAbnormally a prog s ∧ ∀ w, AccessRun a prog s w → w = t) ∧
  (∀ (n : Nat) (s t : State), s.inputs = [] → run n s = .next t →
    t.pc = s.pc + BitVec.ofNat 32 (4 * n) ∧ t.env = s.env ∧ t.mem = s.mem ∧ t.tlb = s.tlb ∧ t.inputs = [])

/-- R153 with D24, and the conditions of R121 to R123: with the access at its address, a run ends abnormally exactly when that
access is UNDEFINED or trapped, or completes and the rest of the run ends so. A run whose next step is an event ends so
exactly when the event stops (D19, R124, log 23) or the run after it does. An access with a register that is not admitted
(R86: 15, and 13 in T32) is refused and ends the run. A fetch that reads no four bytes ends it neither way, nor is there
anything to end in a run of no access. -/
def Obligations.RunsEndAbnormallyAtTheFirstExceptionalOutcome : Prop :=
  ∀ (a : Word) (p : ListedAccess) (prog : List ListedAccess) (s : State),
    (s.pc = a → RunsAccess s p →
      (EndsAbnormally a (p :: prog) s ↔
        UndefinedAccess p.dir s ∨ TrappedToAArch32 p.dir s ∨ TrappedToAArch64 p.dir s ∨
        ∃ u, step s = .next u ∧ EndsAbnormally (a + 4) prog u)) ∧
    (s.runsInstruction = false →
      (EndsAbnormally a (p :: prog) s ↔ ¬ Safe (step s) ∨ ∃ u, step s = .next u ∧ EndsAbnormally a (p :: prog) u)) ∧
    (s.pc = a → FetchesAccess s p → p.isRefused → EndsAbnormally a (p :: prog) s) ∧
    (∀ x, (step s = .fault (.pcMisaligned x) ∨ step s = .fault (.fetchUnwritten x) ∨ step s = .fault (.fetchAbsent x)) →
      ¬ EndsAbnormally a (p :: prog) s) ∧
    ¬ EndsAbnormally a [] s

/-! ### Reset -/

/-- R140, R141: after a reset into EL3 using AArch32, TTBCR_S has every stated reset value (R142: the bits 0xFFC73FB7 are 0) and
TTBCR_NS has EAE 0; after a reset into another AArch32 Exception level, TTBCR has every stated reset value (this clause the spec
marks as derived, "the source states the two-instance case only"). A Cold reset does the same (D4, log 27). Every bit with no
stated value is whatever the draw has (D3). -/
def Obligations.ResetIntoAArch32 : Prop :=
  ∀ (s : State) (k : ResetKind) (d : Arch) (rest : List Input),
    ∃ t, step { s with inputs := .reset k true d :: rest } = .next t ∧ t.inputs = rest ∧ t.cfg = s.cfg ∧ t.env = d.env ∧
      (d.env.el = .el3 →
        t.ttbcrS.value &&& 0xFFC73FB7#32 = 0 ∧
        t.ttbcrS.value &&& 0x0038C048#32 = d.ttbcrS.value &&& 0x0038C048#32 ∧
        t.ttbcrNS.value.getLsbD 31 = false ∧
        (∀ i, i < 31 → t.ttbcrNS.value.getLsbD i = d.ttbcrNS.value.getLsbD i)) ∧
      (d.env.el ≠ .el3 →
        t.ttbcr.value &&& 0xFFC73FB7#32 = 0 ∧ t.ttbcr.value &&& 0x0038C048#32 = d.ttbcr.value &&& 0x0038C048#32)

/-- R145: after a reset into an Exception level that is not using AArch32 no bit of any storage has a stated value: each can
be anything. -/
def Obligations.ResetIntoAArch64StatesNothing : Prop :=
  ∀ (s : State) (k : ResetKind) (a b c : Word) (rest : List Input) (el : EL),
    ∃ d t, d.env.el = el ∧ step { s with inputs := .reset k false d :: rest } = .next t ∧ t.ttbcr.value = a ∧
      t.ttbcrS.value = b ∧ t.ttbcrNS.value = c

/-- R142, R146: a value whose bits with a stated reset value are all 0 is read in the EAE == 0 format, with walks enabled for
both TTBRs and N = 0, so that TTBR0's base address field is bits [31:14]; and the fields of the EAE == 1 format that have
a reset paragraph are all 0 in it. -/
def Obligations.ResetValueReadsAsTheResetFields : Prop :=
  ∀ v : Word, v &&& 0xFFC73FB7#32 = 0 →
    tableFormat v = .shortDescriptor ∧ (ShortFields.ofWord v).pd1 = 0 ∧ (ShortFields.ofWord v).pd0 = 0 ∧
    (ShortFields.ofWord v).n = 0 ∧ walkDisabled v .ttbr0 = false ∧ walkDisabled v .ttbr1 = false ∧
    ttbr0LowBit (ShortFields.ofWord v).n = 14 ∧
    (LongFields.ofWord v).impl = 0 ∧ (LongFields.ofWord v).sh1 = 0 ∧ (LongFields.ofWord v).orgn1 = 0 ∧
    (LongFields.ofWord v).irgn1 = 0 ∧ (LongFields.ofWord v).epd1 = 0 ∧ (LongFields.ofWord v).a1 = 0 ∧
    (LongFields.ofWord v).t1sz = 0 ∧ (LongFields.ofWord v).sh0 = 0 ∧ (LongFields.ofWord v).orgn0 = 0 ∧
    (LongFields.ofWord v).irgn0 = 0 ∧ (LongFields.ofWord v).epd0 = 0 ∧ (LongFields.ofWord v).t0sz = 0

/-- The reset state meets the stated values of a reset into EL3 using AArch32 (R141, R142). The other values it holds are the
model's choice (log 5) and are not stated here. -/
def Obligations.ResetStateHasTheStatedValues : Prop :=
  State.reset.env.el = .el3 ∧ State.reset.env.el3UsesAArch32 = true ∧
    State.reset.ttbcrS.value &&& 0xFFC73FB7#32 = 0 ∧ State.reset.ttbcrNS.value.getLsbD 31 = false

/-! ### The formats -/

/-- R15: the fields of the EAE == 0 format, from bit [31] down EAE, RES0 (25 bits), PD1, PD0, RES0, N (3 bits), cover all 32
bits without gap or overlap: a value of that format is its fields put together in this order, and any fields put together are
a value of that format with just those fields. -/
def Obligations.ShortFormatFieldsPartitionTheRegister : Prop :=
  (∀ v : Word, v.getLsbD 31 = false → v = 0b0#1 ++ (ShortFields.ofWord v).res30 ++ (ShortFields.ofWord v).pd1 ++
    (ShortFields.ofWord v).pd0 ++ (ShortFields.ofWord v).res3 ++ (ShortFields.ofWord v).n) ∧
  (∀ (a : BitVec 25) (b c d : BitVec 1) (e : BitVec 3),
    tableFormat (0b0#1 ++ a ++ b ++ c ++ d ++ e) = .shortDescriptor ∧
    ShortFields.ofWord (0b0#1 ++ a ++ b ++ c ++ d ++ e) = { res30 := a, pd1 := b, pd0 := c, res3 := d, n := e })

/-- R22: the fields of the EAE == 1 format, from bit [31] down EAE, IMPL, SH1, ORGN1, IRGN1, EPD1, A1, RES0 (3 bits), T1SZ,
RES0 (2 bits), SH0, ORGN0, IRGN0, EPD0, bit [6], RES0 (3 bits), T0SZ, cover all 32 bits without gap or overlap. Bit [6] is T2E
with FEAT_AA32HPD, and RES0 without it. -/
def Obligations.LongFormatFieldsPartitionTheRegister : Prop :=
  (∀ v : Word, v.getLsbD 31 = true →
    let f := LongFields.ofWord v
    v = 0b1#1 ++ f.impl ++ f.sh1 ++ f.orgn1 ++ f.irgn1 ++ f.epd1 ++ f.a1 ++ f.res21 ++ f.t1sz ++ f.res15 ++ f.sh0 ++ f.orgn0
      ++ f.irgn0 ++ f.epd0 ++ f.bit6 ++ f.res5 ++ f.t0sz) ∧
  (∀ f : LongFields,
    let v : Word := 0b1#1 ++ f.impl ++ f.sh1 ++ f.orgn1 ++ f.irgn1 ++ f.epd1 ++ f.a1 ++ f.res21 ++ f.t1sz ++ f.res15 ++ f.sh0
      ++ f.orgn0 ++ f.irgn0 ++ f.epd0 ++ f.bit6 ++ f.res5 ++ f.t0sz
    tableFormat v = .longDescriptor ∧ LongFields.ofWord v = f ∧
    ∀ cfg : Cfg, (IsRes0 cfg v 6 ↔ cfg.featAA32HPD = false) ∧
      (t2e cfg v = true ↔ cfg.featAA32HPD = true ∧ f.bit6 = 1))

/-- R40 (a): a RES0 bit has no effect whatever is stored: two values that differ in RES0 positions alone translate every
address alike in every state. Where bit [30] is 1 it holds by the model's choice of what its effect depends on (log 24). -/
def Obligations.Res0BitsHaveNoEffectOnTranslation : Prop :=
  ∀ (s : State) (v w va : Word), eae v = eae w → (∀ i, i < 32 → ¬ IsRes0 s.cfg v i → v.getLsbD i = w.getLsbD i) →
    resolve s v va = resolve s w va

/-! ### Translation -/

/-- R64, R124, D19: a TLB hit is used whatever the disable bits are. On a miss, with the address in the region of TTBRX and D
the disable bit of TTBRX in the current format: D = 1 generates the Translation fault and no walk, and D = 0 performs a walk
using TTBRX, which is refused when its Shareability is the reserved value; an address that the selection puts in no region
generates a Translation fault of no TTBR, R70's general knowledge (log 23). Bit [30] of the EAE == 1 format is taken as having no effect, since its effect is
IMPLEMENTATION DEFINED (D15). -/
def Obligations.WalkDisableActsOnATlbMissAlone : Prop :=
  ∀ (s : State) (sec : Security) (va v : Word) (choice : Nat) (rest : List Input),
    valueInUse s sec choice = v → NoImpdef v →
    (va ∈ s.tlb → step { s with inputs := .translate sec va choice :: rest } =
      .next { s with inputs := rest, lastTranslation := some (.cached va) }) ∧
    (va ∉ s.tlb →
      (selectTtbr v va = .noRegion ∧
        step { s with inputs := .translate sec va choice :: rest } = .fault (.translationFault va none)) ∨
      ∃ x, selectTtbr v va = regionOf x ∧
        let d := if eae v then (if x = .ttbr0 then v.getLsbD 7 else v.getLsbD 23)
                 else (if x = .ttbr0 then v.getLsbD 4 else v.getLsbD 5)
        let sh := if x = .ttbr0 then v.extractLsb' 12 2 else v.extractLsb' 28 2
        (d = true → step { s with inputs := .translate sec va choice :: rest } = .fault (.translationFault va (some x))) ∧
        (d = false → ¬ (eae v = true ∧ sh = 0b01#2) →
          ∃ w, w.va = va ∧ w.ttbr = x ∧ step { s with inputs := .translate sec va choice :: rest } =
            .next { s with inputs := rest, lastTranslation := some (.walk w) }) ∧
        (d = false → eae v = true → sh = 0b01#2 →
          step { s with inputs := .translate sec va choice :: rest } = .refused (.reservedShareability x)))

/-- R61, R63, R65: a walk in the EAE == 0 format is of Short-descriptor tables and has no attributes from TTBCR; through
TTBR0 the size of its table is a function of N alone, which the source does not give (log 26), and its base is bits [31:14-N]
of TTBR0 over zeros, so it is a multiple of 2^(14-N) (the base over zeros is the spec's inference in R63); through TTBR1 its
base is an opaque function of N and TTBR1 (R48, log 26). -/
def Obligations.ShortFormatWalks : Prop :=
  ∀ (s t : State) (sec : Security) (va v : Word) (choice : Nat) (w : Walk) (rest : List Input),
    valueInUse s sec choice = v → eae v = false →
    step { s with inputs := .translate sec va choice :: rest } = .next t → t.lastTranslation = some (.walk w) →
    selectTtbr v va = regionOf w.ttbr ∧ w.va = va ∧ w.format = .shortDescriptor ∧ w.attributes = none ∧ w.asid = none ∧
    w.ttbcr2 = 0 ∧ t = { s with inputs := rest, lastTranslation := some (.walk w) } ∧
    (w.ttbr = .ttbr0 → w.tableSize = some (Config.ttbr0TableSize (v.extractLsb' 0 3)) ∧
      (∀ i, i < 64 →
        w.base.getLsbD i = (decide (14 - (v.extractLsb' 0 3).toNat ≤ i ∧ i ≤ 31) && s.ttbr0.getLsbD i)) ∧
      w.base.toNat % 2 ^ (14 - (v.extractLsb' 0 3).toNat) = 0) ∧
    (w.ttbr = .ttbr1 → w.base = Config.ttbrBase .shortDescriptor .ttbr1 (v.extractLsb' 0 3) s.ttbr1)

/-- R61, R65, R66, R67: a translation in the EAE == 1 format that misses in the TLB and is in the region of TTBRX, with
walks through TTBRX enabled and its Shareability not reserved, whatever holds of the other TTBR, is a walk of
Long-descriptor tables, with the Shareability and cacheability of the fields of TTBRX, with the ASID of the TTBR that A1
selects, and with TTBCR2 seen as 0 unless T2E is 1 and implemented. The base is an opaque function of
the TTBR, its size field and its contents (R48, log 26), the ASID field is opaque (log 22), and bit [30] is 0 by hypothesis
(D15). -/
def Obligations.LongFormatWalks : Prop :=
  ∀ (s : State) (sec : Security) (va v : Word) (choice : Nat) (rest : List Input),
    valueInUse s sec choice = v → eae v = true → v.getLsbD 30 = false → va ∉ s.tlb →
    selectTtbr v va = .noRegion ∨
    ∃ x, selectTtbr v va = regionOf x ∧
      let d := if x = .ttbr0 then v.getLsbD 7 else v.getLsbD 23
      let sh := if x = .ttbr0 then v.extractLsb' 12 2 else v.extractLsb' 28 2
      let orgn := if x = .ttbr0 then v.extractLsb' 10 2 else v.extractLsb' 26 2
      let irgn := if x = .ttbr0 then v.extractLsb' 8 2 else v.extractLsb' 24 2
      (d = false → sh ≠ 0b01#2 → ∃ w a,
      step { s with inputs := .translate sec va choice :: rest } =
        .next { s with inputs := rest, lastTranslation := some (.walk w) } ∧
      w.va = va ∧ w.ttbr = x ∧ w.format = .longDescriptor ∧
      w.base = Config.ttbrBase .longDescriptor x (if x = .ttbr0 then v.extractLsb' 0 3 else v.extractLsb' 16 3)
        (if x = .ttbr0 then s.ttbr0 else s.ttbr1) ∧
      w.attributes = some a ∧
      (sh = 0b00#2 → a.shareability = .nonShareable) ∧ (sh = 0b10#2 → a.shareability = .outerShareable) ∧
      (sh = 0b11#2 → a.shareability = .innerShareable) ∧
      (orgn = 0b00#2 → a.outer = .nonCacheable) ∧ (orgn = 0b01#2 → a.outer = .writeBackReadAllocateWriteAllocate) ∧
      (orgn = 0b10#2 → a.outer = .writeThroughReadAllocateNoWriteAllocate) ∧
      (orgn = 0b11#2 → a.outer = .writeBackReadAllocateNoWriteAllocate) ∧
      (irgn = 0b00#2 → a.inner = .nonCacheable) ∧ (irgn = 0b01#2 → a.inner = .writeBackReadAllocateWriteAllocate) ∧
      (irgn = 0b10#2 → a.inner = .writeThroughReadAllocateNoWriteAllocate) ∧
      (irgn = 0b11#2 → a.inner = .writeBackReadAllocateNoWriteAllocate) ∧
      w.asid = some (if v.getLsbD 22 then (.ttbr1, Config.ttbrAsid .ttbr1 s.ttbr1)
        else (.ttbr0, Config.ttbrAsid .ttbr0 s.ttbr0)) ∧
      w.ttbcr2 = (if s.cfg.featAA32HPD = true ∧ v.getLsbD 6 = true then s.ttbcr2 else 0))

/-- R67: TTBCR2 is enabled exactly when FEAT_AA32HPD is implemented and TTBCR.{EAE, T2E} is {1, 1}, and its contents are
treated as 0 otherwise; a write of it stores its value whatever TTBCR holds. Its width is presumed (log 22). -/
def Obligations.Ttbcr2IsEnabledByEaeAndT2e : Prop :=
  ∀ (cfg : Cfg) (v ttbcr2 : Word),
    (ttbcr2Enabled cfg v = true ↔ cfg.featAA32HPD = true ∧ v.getLsbD 31 = true ∧ v.getLsbD 6 = true) ∧
    ttbcr2InUse cfg v ttbcr2 =
      (if cfg.featAA32HPD = true ∧ v.getLsbD 31 = true ∧ v.getLsbD 6 = true then ttbcr2 else 0) ∧
    (∀ (s : State) (rest : List Input), ∃ t, step { s with inputs := .writeTtbcr2 ttbcr2 :: rest } = .next t ∧
      t.ttbcr2 = ttbcr2)

/-- R148 with D12: after a completed write, and before a context synchronization event, a translation may use the value
written (choice 0) or the one it replaced (choice 1); a context synchronization event keeps the value and leaves no other to
use. A read never sees an old value. The draw is the spec's decision D12 (log 18). -/
def Obligations.TranslationsSeeOldOrNewUntilSynchronized : Prop :=
  ∀ (f : Form) (t : Reg) (s u : State) (b : Bank), IsAccess (.mcrTtbcr f t) s → exec (.mcrTtbcr f t) s = .next u →
    Reaches s b →
    (u.bank b).pick 0 = s.readReg t ∧ (u.bank b).pick 1 = (s.bank b).value ∧
    u.readBank b = readValue s.cfg (s.readReg t) ∧
    ∀ (rest : List Input), ∃ w, step { u with inputs := .contextSync :: rest } = .next w ∧
      ∀ (c : Bank) (choice : Nat), (w.bank c).value = (u.bank c).value ∧ (w.bank c).pick choice = (u.bank c).value

/-- R13 with the spec's decision D17: TCR_EL1[31:0] is the mapped storage, a TCR_EL1 write stores its low half there, the
storage that EL1 and EL2 reach, and it leaves TTBCR_S alone. Three things are the model's choice, of which the spec says
nothing (N8, log 20): that TCR_EL1 and its mapping are there in every `Cfg` and `Env`, without AArch64 too, that a read of TCR_EL1[31:0] is masked by the RES0 policy as a read of TTBCR is, and that TCR_EL1[63:32] reads
back as written. -/
def Obligations.TcrEl1IsTheMappedStorage : Prop :=
  ∀ (s : State) (v : BitVec 64) (rest : List Input),
    s.tcrEl1.extractLsb' 0 32 = s.readBank (mappedBank s.cfg s.env) ∧
    ∃ u, step { s with inputs := .writeTcrEl1 v :: rest } = .next u ∧
      (u.bank (mappedBank s.cfg s.env)).value = v.setWidth 32 ∧
      u.tcrEl1.extractLsb' 0 32 = readValue s.cfg (v.setWidth 32) ∧ u.tcrEl1.extractLsb' 32 32 = v.extractLsb' 32 32 ∧
      u.ttbcrS = s.ttbcrS ∧
      (∀ b, (s.env.el = .el1 ∨ s.env.el = .el2) → Reaches s b → b = mappedBank s.cfg s.env)

/-- The model's choice of a TLB (D13, log 17): a fill makes exactly the one address hit, and an eviction makes exactly the
one address miss. -/
def Obligations.TlbFillAndEvict : Prop :=
  ∀ (s : State) (va : Word) (rest : List Input),
    (∃ u, step { s with inputs := .tlbFill va :: rest } = .next u ∧ ∀ a, a ∈ u.tlb ↔ a = va ∨ a ∈ s.tlb) ∧
    (∃ u, step { s with inputs := .tlbEvict va :: rest } = .next u ∧ ∀ a, a ∈ u.tlb ↔ a ≠ va ∧ a ∈ s.tlb)

/-- R69 and R70, the candidates from general knowledge that the model keeps out of the machine (log 23, log 26). The
Short-descriptor candidate is "TTBR0 translates the addresses below 2^(32-N)", with the tables of R69. The Long-descriptor one
gives the cases (a) to (d) of R70, with the region sizes of R70; that a gap generates a Translation fault is not here. -/
def Obligations.CandidateSelectionSplitsTheRange : Prop :=
  (∀ (n : BitVec 3) (va : Word), candidateSelectShort n va = .ttbr0 ↔ va.toNat < 2 ^ (32 - n.toNat)) ∧
  (∀ n : BitVec 3, candidateTtbr0TableSize n = 2 ^ (14 - n.toNat) ∧ candidateTtbr0Entries n = 2 ^ (12 - n.toNat)) ∧
  candidateTtbr1TableSize = 16384 ∧
  (∀ n : BitVec 3, candidateRegionSize n = 2 ^ (32 - n.toNat)) ∧
  (∀ (ttbr1 : BitVec 64) (i : Nat), i < 32 →
    (candidateTtbr1Base ttbr1).getLsbD i = (decide (14 ≤ i) && ttbr1.getLsbD i)) ∧
  (∀ (t0 t1 : BitVec 3) (va : Word),
    (t0 = 0 → t1 = 0 → candidateSelectLong t0 t1 va = .useTtbr0) ∧
    (t0 ≠ 0 → t1 = 0 →
      (candidateSelectLong t0 t1 va = .useTtbr0 ↔ va.toNat ≤ 2 ^ (32 - t0.toNat) - 1) ∧
      (candidateSelectLong t0 t1 va = .useTtbr1 ↔ 2 ^ (32 - t0.toNat) - 1 < va.toNat)) ∧
    (t0 = 0 → t1 ≠ 0 →
      (candidateSelectLong t0 t1 va = .useTtbr1 ↔ 2 ^ 32 - 2 ^ (32 - t1.toNat) ≤ va.toNat) ∧
      (candidateSelectLong t0 t1 va = .useTtbr0 ↔ va.toNat < 2 ^ 32 - 2 ^ (32 - t1.toNat))) ∧
    (t0 ≠ 0 → t1 ≠ 0 →
      (candidateSelectLong t0 t1 va = .useTtbr0 ↔ va.toNat ≤ 2 ^ (32 - t0.toNat) - 1) ∧
      (candidateSelectLong t0 t1 va = .useTtbr1 ↔ 2 ^ 32 - 2 ^ (32 - t1.toNat) ≤ va.toNat) ∧
      (candidateSelectLong t0 t1 va = .noRegion ↔
        2 ^ (32 - t0.toNat) - 1 < va.toNat ∧ va.toNat < 2 ^ 32 - 2 ^ (32 - t1.toNat))))

/-- R60 with D16 (log 19): with EL3 using AArch32 a Secure translation uses TTBCR_S and a Non-secure one TTBCR_NS; otherwise
every translation uses the single TTBCR. Stated of the current value, choice 0. -/
def Obligations.TranslationsUseTheInForceInstance : Prop :=
  ∀ s : State,
    (El3IsAArch32 s → valueInUse s .secure 0 = s.ttbcrS.value ∧ valueInUse s .nonSecure 0 = s.ttbcrNS.value) ∧
    (¬ El3IsAArch32 s → ∀ sec, valueInUse s sec 0 = s.ttbcr.value)

/-- R152 with D18 (log 21): an `environment` input replaces the `Env` inputs and leaves everything else as it was, but for
the one name of TTBCR that EL1 and EL2 newly reach where EL3's execution state changes: that holds the draw. -/
def Obligations.EnvironmentChangesEnvAndTheNameNewlyReached : Prop :=
  ∀ (s : State) (e : Env) (d : Word) (rest : List Input),
    ∃ t, step { s with inputs := .environment e d :: rest } = .next t ∧ t.env = e ∧ t.regs = s.regs ∧ t.pc = s.pc ∧
      t.isa = s.isa ∧ t.flags = s.flags ∧ t.itCond = s.itCond ∧ t.ttbr0 = s.ttbr0 ∧ t.ttbr1 = s.ttbr1 ∧
      t.ttbcr2 = s.ttbcr2 ∧ t.tcrEl1Hi = s.tcrEl1Hi ∧ t.tlb = s.tlb ∧ t.mem = s.mem ∧
      t.lastTranslation = s.lastTranslation ∧ t.cfg = s.cfg ∧ t.inputs = rest ∧ t.ttbcrS = s.ttbcrS ∧
      (∀ b, b ≠ mappedBank s.cfg e → t.bank b = s.bank b) ∧
      (mappedBank s.cfg e ≠ mappedBank s.cfg s.env → (t.bank (mappedBank s.cfg e)).value = d) ∧
      (e.el3UsesAArch32 = s.env.el3UsesAArch32 → ∀ b, t.bank b = s.bank b)
end

