-- ==== Sys2Proof/Laws/State.lean ====
section
/-! SUPPORT. What each update of the state leaves alone, one lemma a field, and the storages of TTBCR. -/

namespace Sys2Proof.Machine

variable (s : State) (t : Reg) (v : Word) (b : Bank) (x : Ttbcr)

/-! ### `writeReg` -/

@[simp] theorem writeReg_pc : (s.writeReg t v).pc = s.pc := rfl
@[simp] theorem writeReg_isa : (s.writeReg t v).isa = s.isa := rfl
@[simp] theorem writeReg_flags : (s.writeReg t v).flags = s.flags := rfl
@[simp] theorem writeReg_itCond : (s.writeReg t v).itCond = s.itCond := rfl
@[simp] theorem writeReg_env : (s.writeReg t v).env = s.env := rfl
@[simp] theorem writeReg_ttbcr : (s.writeReg t v).ttbcr = s.ttbcr := rfl
@[simp] theorem writeReg_ttbcrS : (s.writeReg t v).ttbcrS = s.ttbcrS := rfl
@[simp] theorem writeReg_ttbcrNS : (s.writeReg t v).ttbcrNS = s.ttbcrNS := rfl
@[simp] theorem writeReg_ttbr0 : (s.writeReg t v).ttbr0 = s.ttbr0 := rfl
@[simp] theorem writeReg_ttbr1 : (s.writeReg t v).ttbr1 = s.ttbr1 := rfl
@[simp] theorem writeReg_ttbcr2 : (s.writeReg t v).ttbcr2 = s.ttbcr2 := rfl
@[simp] theorem writeReg_tcrEl1Hi : (s.writeReg t v).tcrEl1Hi = s.tcrEl1Hi := rfl
@[simp] theorem writeReg_tlb : (s.writeReg t v).tlb = s.tlb := rfl
@[simp] theorem writeReg_mem : (s.writeReg t v).mem = s.mem := rfl
@[simp] theorem writeReg_lastTranslation : (s.writeReg t v).lastTranslation = s.lastTranslation := rfl
@[simp] theorem writeReg_cfg : (s.writeReg t v).cfg = s.cfg := rfl
@[simp] theorem writeReg_inputs : (s.writeReg t v).inputs = s.inputs := rfl

@[simp] theorem writeReg_bank : (s.writeReg t v).bank b = s.bank b := by cases b <;> rfl

@[simp] theorem readReg_writeReg_same : (s.writeReg t v).readReg t = v := by
  simp [State.readReg, State.writeReg]

theorem readReg_writeReg_other (r : Reg) (h : r ≠ t) : (s.writeReg t v).readReg r = s.readReg r := by
  have : t.val ≠ r.val := fun e => h (Fin.ext e.symm)
  simp [State.readReg, State.writeReg, this]

/-! ### `advancePc` -/

@[simp] theorem advancePc_regs : s.advancePc.regs = s.regs := rfl
@[simp] theorem advancePc_pc : s.advancePc.pc = s.pc + 4 := rfl
@[simp] theorem advancePc_isa : s.advancePc.isa = s.isa := rfl
@[simp] theorem advancePc_flags : s.advancePc.flags = s.flags := rfl
@[simp] theorem advancePc_itCond : s.advancePc.itCond = s.itCond := rfl
@[simp] theorem advancePc_env : s.advancePc.env = s.env := rfl
@[simp] theorem advancePc_ttbcr : s.advancePc.ttbcr = s.ttbcr := rfl
@[simp] theorem advancePc_ttbcrS : s.advancePc.ttbcrS = s.ttbcrS := rfl
@[simp] theorem advancePc_ttbcrNS : s.advancePc.ttbcrNS = s.ttbcrNS := rfl
@[simp] theorem advancePc_ttbr0 : s.advancePc.ttbr0 = s.ttbr0 := rfl
@[simp] theorem advancePc_ttbr1 : s.advancePc.ttbr1 = s.ttbr1 := rfl
@[simp] theorem advancePc_ttbcr2 : s.advancePc.ttbcr2 = s.ttbcr2 := rfl
@[simp] theorem advancePc_tcrEl1Hi : s.advancePc.tcrEl1Hi = s.tcrEl1Hi := rfl
@[simp] theorem advancePc_tlb : s.advancePc.tlb = s.tlb := rfl
@[simp] theorem advancePc_mem : s.advancePc.mem = s.mem := rfl
@[simp] theorem advancePc_lastTranslation : s.advancePc.lastTranslation = s.lastTranslation := rfl
@[simp] theorem advancePc_cfg : s.advancePc.cfg = s.cfg := rfl
@[simp] theorem advancePc_inputs : s.advancePc.inputs = s.inputs := rfl
@[simp] theorem advancePc_bank : s.advancePc.bank b = s.bank b := by cases b <;> rfl
@[simp] theorem advancePc_readReg : s.advancePc.readReg t = s.readReg t := rfl

/-! ### `setBank` -/

@[simp] theorem setBank_regs : (s.setBank b x).regs = s.regs := by cases b <;> rfl
@[simp] theorem setBank_pc : (s.setBank b x).pc = s.pc := by cases b <;> rfl
@[simp] theorem setBank_isa : (s.setBank b x).isa = s.isa := by cases b <;> rfl
@[simp] theorem setBank_flags : (s.setBank b x).flags = s.flags := by cases b <;> rfl
@[simp] theorem setBank_itCond : (s.setBank b x).itCond = s.itCond := by cases b <;> rfl
@[simp] theorem setBank_env : (s.setBank b x).env = s.env := by cases b <;> rfl
@[simp] theorem setBank_ttbr0 : (s.setBank b x).ttbr0 = s.ttbr0 := by cases b <;> rfl
@[simp] theorem setBank_ttbr1 : (s.setBank b x).ttbr1 = s.ttbr1 := by cases b <;> rfl
@[simp] theorem setBank_ttbcr2 : (s.setBank b x).ttbcr2 = s.ttbcr2 := by cases b <;> rfl
@[simp] theorem setBank_tcrEl1Hi : (s.setBank b x).tcrEl1Hi = s.tcrEl1Hi := by cases b <;> rfl
@[simp] theorem setBank_tlb : (s.setBank b x).tlb = s.tlb := by cases b <;> rfl
@[simp] theorem setBank_mem : (s.setBank b x).mem = s.mem := by cases b <;> rfl
@[simp] theorem setBank_lastTranslation : (s.setBank b x).lastTranslation = s.lastTranslation := by cases b <;> rfl
@[simp] theorem setBank_cfg : (s.setBank b x).cfg = s.cfg := by cases b <;> rfl
@[simp] theorem setBank_inputs : (s.setBank b x).inputs = s.inputs := by cases b <;> rfl
@[simp] theorem setBank_readReg : (s.setBank b x).readReg t = s.readReg t := by cases b <;> rfl

@[simp] theorem bank_setBank_same : (s.setBank b x).bank b = x := by cases b <;> rfl

theorem bank_setBank_other (c : Bank) (h : c ≠ b) : (s.setBank b x).bank c = s.bank c := by
  cases b <;> cases c <;> first | rfl | exact absurd rfl h

/-- One storage after a replacement of another or of itself. -/
theorem bank_setBank (c : Bank) : (s.setBank b x).bank c = if c = b then x else s.bank c := by
  by_cases h : c = b
  · subst h; simp
  · rw [bank_setBank_other s b x c h, if_neg h]

@[simp] theorem Ttbcr.write_value : (x.write v).value = v := rfl
@[simp] theorem Ttbcr.write_stale : (x.write v).stale = x.value :: x.stale := rfl
@[simp] theorem Ttbcr.pick_zero : x.pick 0 = x.value := rfl

end Sys2Proof.Machine
end

