-- ==== Sys2Proof/Laws/Access.lean ====
section
/-! SUPPORT. What the access pseudocode decides, and everything the two meanings can answer. -/

namespace Sys2Proof.Machine

/-! ### The pseudocode's decision in the terms of the rules -/

theorem el3IsAArch32_iff (s : State) : el3IsAArch32 s.cfg s.env = true ↔ El3IsAArch32 s := by
  simp [el3IsAArch32, El3IsAArch32, and_assoc]

/-- The name that EL1 and EL2 reach depends on EL3's execution state alone, once the configuration is given. -/
theorem mappedBank_of_el3 (cfg : Cfg) (e e' : Env) (h : e.el3UsesAArch32 = e'.el3UsesAArch32) :
    mappedBank cfg e = mappedBank cfg e' := by
  simp [mappedBank, el3IsAArch32, h]

theorem mappedBank_ne_ttbcrS (cfg : Cfg) (e : Env) : mappedBank cfg e ≠ .ttbcrS := by
  unfold mappedBank
  split <;> simp

/-- R103: where the decision is an access, it is to the storage of the table. -/
theorem routeAccess_reaches (d : Direction) (s : State) (b : Bank) (h : routeAccess d s.cfg s.env = .access b) :
    Reaches s b := by
  have hm : ∀ b, mappedBank s.cfg s.env = b → (El3IsAArch32 s ∧ b = .ttbcrNS) ∨ (¬ El3IsAArch32 s ∧ b = .ttbcr) := by
    intro b hb
    rw [← el3IsAArch32_iff]
    unfold mappedBank at hb
    split at hb <;> simp_all
  unfold routeAccess at h
  split at h
  · split at h
    · cases h
    · rename_i he
      unfold routeAtEl1 at h
      repeat' split at h
      all_goals first | (cases h; done) | skip
      injection h with h
      rcases hm b h with ⟨h1, h2⟩ | ⟨h1, h2⟩
      · exact .inl ⟨he, h1, h2⟩
      · exact .inr (.inl ⟨he, h1, h2⟩)
    · rename_i he
      injection h with h
      rcases hm b h with ⟨h1, h2⟩ | ⟨h1, h2⟩
      · exact .inr (.inr (.inl ⟨he, h1, h2⟩))
      · exact .inr (.inr (.inr (.inl ⟨he, h1, h2⟩)))
    · rename_i he
      unfold routeAtEl3 at h
      repeat' split at h
      · cases h
      · cases h
      · rename_i hn; injection h with h
        exact .inr (.inr (.inr (.inr (.inr ⟨he, hn, h.symm⟩))))
      · rename_i hn; injection h with h
        exact .inr (.inr (.inr (.inr (.inl ⟨he, by simpa using hn, h.symm⟩))))
  · cases h

/-- The table of R103 names one storage. -/
theorem Reaches.unique (s : State) (b c : Bank) (hb : Reaches s b) (hc : Reaches s c) : b = c := by
  unfold Reaches at hb hc
  rcases hb with ⟨h1, h2, rfl⟩ | ⟨h1, h2, rfl⟩ | ⟨h1, h2, rfl⟩ | ⟨h1, h2, rfl⟩ | ⟨h1, h2, rfl⟩ | ⟨h1, h2, rfl⟩ <;>
    simp_all

/-- R121: the decision is UNDEFINED exactly under the conditions of the rule. -/
theorem routeAccess_undefined_iff (d : Direction) (s : State) :
    routeAccess d s.cfg s.env = .raise .undefined ↔ UndefinedAccess d s := by
  cases hf : s.cfg.featAA32EL1 <;> cases he : s.env.el <;> cases d <;> cases hn : s.env.scrNS <;>
    cases h1 : s.env.cp15SDisable <;> cases h2 : s.env.cp15SDisable2 <;>
    simp [routeAccess, UndefinedAccess, LockedOut, hf, he, routeAtEl3, hn, h1, h2] <;>
    (unfold routeAtEl1; repeat' split) <;> simp

/-- R122: the decision is the Hyp trap exactly under the conditions of the rule, with the code 0x03. -/
theorem routeAccess_hypTrap_iff (d : Direction) (s : State) (code : Nat) :
    routeAccess d s.cfg s.env = .raise (.hypTrap code) ↔ code = 0x03 ∧ TrappedToAArch32 d s := by
  cases hf : s.cfg.featAA32EL1 <;> cases he : s.env.el <;> simp only [routeAccess, TrappedToAArch32, hf, he]
  case true.el1 =>
    cases hx : s.env.el2UsesAArch32 <;> cases d <;>
      simp [routeAtEl1, trapA64, trapA32, Env.hcrControl, Env.hcrEl2Control, hx] <;>
      (repeat' split) <;> simp_all <;> tauto
  case true.el3 => unfold routeAtEl3; repeat' split
                   all_goals simp
  all_goals simp

/-- R123: the decision is the trap to an AArch64 EL2 exactly under the conditions of the rule, with the code 0x03. -/
theorem routeAccess_aarch64Trap_iff (d : Direction) (s : State) (code : Nat) :
    routeAccess d s.cfg s.env = .raise (.aarch64SystemAccessTrapToEL2 code) ↔ code = 0x03 ∧ TrappedToAArch64 d s := by
  cases hf : s.cfg.featAA32EL1 <;> cases he : s.env.el <;> simp only [routeAccess, TrappedToAArch64, hf, he]
  case true.el1 =>
    cases hx : s.env.el2UsesAArch32 <;> cases d <;>
      simp [routeAtEl1, trapA64, trapA32, Env.hcrControl, Env.hcrEl2Control, hx] <;>
      (repeat' split) <;> simp_all <;> tauto
  case true.el3 => unfold routeAtEl3; repeat' split
                   all_goals simp
  all_goals simp

/-- The decision is an access where no rule raises an outcome. -/
theorem routeAccess_of_reaches (d : Direction) (s : State) (b : Bank) (hr : Reaches s b)
    (hu : ¬ UndefinedAccess d s) (h32 : ¬ TrappedToAArch32 d s) (h64 : ¬ TrappedToAArch64 d s) :
    routeAccess d s.cfg s.env = .access b := by
  cases h : routeAccess d s.cfg s.env with
  | access c => rw [Reaches.unique s c b (routeAccess_reaches d s c h) hr]
  | raise e =>
    cases e with
    | undefined => exact absurd ((routeAccess_undefined_iff d s).1 h) hu
    | hypTrap code => exact absurd ((routeAccess_hypTrap_iff d s code).1 h).2 h32
    | aarch64SystemAccessTrapToEL2 code => exact absurd ((routeAccess_aarch64Trap_iff d s code).1 h).2 h64

/-- `EL` is one of four, so every access above EL0 reaches some storage by the table. -/
theorem reaches_exists (s : State) (h : s.env.el ≠ .el0) : ∃ b, Reaches s b := by
  unfold Reaches
  by_cases h3 : El3IsAArch32 s <;> cases he : s.env.el <;> cases hn : s.env.scrNS <;> simp_all

/-! ### What the meanings answer -/

/-- The meaning of either instruction when it is an access (R100, R101): the pseudocode's decision, carried out. -/
theorem exec_of_access (i : Instr) (s : State) (h : IsAccess i s) :
    exec i s =
      match routeAccess (direction i) s.cfg s.env with
      | .raise e => raise e
      | .access b =>
        match i with
        | .mrcTtbcr _ t => .next (s.writeReg t (s.readBank b)).advancePc
        | .mcrTtbcr _ t => .next (s.writeBank b (s.readReg t)).advancePc := by
  obtain ⟨hw, hc⟩ := h
  cases i with
  | mrcTtbcr f t =>
    simp only [Instr.wellFormed, Instr.form, Instr.rt] at hw hc
    cases h : routeAccess .read s.cfg s.env <;> simp only [exec, execMrcTtbcr, gated, hw, hc, if_true, direction, h]
  | mcrTtbcr f t =>
    simp only [Instr.wellFormed, Instr.form, Instr.rt] at hw hc
    cases h : routeAccess .write s.cfg s.env <;> simp only [exec, execMcrTtbcr, gated, hw, hc, if_true, direction, h]

/-- The meaning of an instruction whose condition fails (log 10). -/
theorem exec_of_failed (i : Instr) (s : State) (hw : i.wellFormed = true) (hc : conditionPassed i.form s = false) :
    exec i s = .next s.advancePc := by
  cases i <;> simp only [Instr.wellFormed, Instr.form, Instr.rt] at hw hc <;>
    simp [exec, execMrcTtbcr, execMcrTtbcr, gated, hw, hc]

/-- The meaning of a term that no encoding stands for (R86). -/
theorem exec_of_ill_formed (i : Instr) (s : State) (hw : i.wellFormed = false) :
    exec i s = .refused (.rtNotAdmitted i.rt) := by
  cases i <;> simp only [Instr.wellFormed, Instr.form, Instr.rt] at hw <;>
    simp [exec, execMrcTtbcr, execMcrTtbcr, gated, hw, Instr.rt]

/-- Everything a next state of either instruction can be. -/
theorem exec_next_cases (i : Instr) (s u : State) (h : exec i s = .next u) :
    u = s.advancePc ∨
    (∃ f t b, i = .mrcTtbcr f t ∧ Reaches s b ∧ u = (s.writeReg t (s.readBank b)).advancePc) ∨
    (∃ f t b, i = .mcrTtbcr f t ∧ Reaches s b ∧ routeAccess .write s.cfg s.env = .access b ∧
      u = (s.writeBank b (s.readReg t)).advancePc) := by
  cases hw : i.wellFormed with
  | false => rw [exec_of_ill_formed i s hw] at h; cases h
  | true =>
    cases hc : conditionPassed i.form s with
    | false =>
      rw [exec_of_failed i s hw hc] at h
      injection h with h
      exact .inl h.symm
    | true =>
      rw [exec_of_access i s ⟨hw, hc⟩] at h
      split at h
      · rename_i e _
        cases e <;> cases h
      · rename_i b hb
        split at h <;> injection h with h
        · exact .inr (.inl ⟨_, _, b, rfl, routeAccess_reaches _ s b hb, h.symm⟩)
        · exact .inr (.inr ⟨_, _, b, rfl, routeAccess_reaches _ s b hb, hb, h.symm⟩)

/-- Everything an access can answer: it completes, or it is one of the three outcomes under the condition of its rule (R121 to
R123). -/
theorem exec_access_cases (i : Instr) (s : State) (h : IsAccess i s) :
    (∃ u, exec i s = .next u ∧ ¬ UndefinedAccess (direction i) s ∧ ¬ TrappedToAArch32 (direction i) s ∧
      ¬ TrappedToAArch64 (direction i) s) ∨
    (exec i s = .fault .undefined ∧ UndefinedAccess (direction i) s) ∨
    (exec i s = .fault (.hypTrap 0x03) ∧ TrappedToAArch32 (direction i) s) ∨
    (exec i s = .fault (.aarch64SystemAccessTrapToEL2 0x03) ∧ TrappedToAArch64 (direction i) s) := by
  rw [exec_of_access i s h]
  cases hr : routeAccess (direction i) s.cfg s.env with
  | access b =>
    refine .inl ?_
    have hu : ¬ UndefinedAccess (direction i) s := fun h => by rw [(routeAccess_undefined_iff _ s).2 h] at hr; cases hr
    have h32 : ¬ TrappedToAArch32 (direction i) s := fun h => by
      rw [(routeAccess_hypTrap_iff _ s _).2 ⟨rfl, h⟩] at hr; cases hr
    have h64 : ¬ TrappedToAArch64 (direction i) s := fun h => by
      rw [(routeAccess_aarch64Trap_iff _ s _).2 ⟨rfl, h⟩] at hr; cases hr
    cases i <;> exact ⟨_, rfl, hu, h32, h64⟩
  | raise e =>
    cases e with
    | undefined => exact .inr (.inl ⟨rfl, (routeAccess_undefined_iff _ s).1 hr⟩)
    | hypTrap code =>
      obtain ⟨rfl, h32⟩ := (routeAccess_hypTrap_iff _ s code).1 hr
      exact .inr (.inr (.inl ⟨rfl, h32⟩))
    | aarch64SystemAccessTrapToEL2 code =>
      obtain ⟨rfl, h64⟩ := (routeAccess_aarch64Trap_iff _ s code).1 hr
      exact .inr (.inr (.inr ⟨rfl, h64⟩))

/-- The fault of an access is the outcome the pseudocode decides. -/
theorem exec_fault_iff (i : Instr) (s : State) (h : IsAccess i s) (r : Fault) :
    exec i s = .fault r ↔ ∃ e, routeAccess (direction i) s.cfg s.env = .raise e ∧ raise e = .fault r := by
  rw [exec_of_access i s h]
  cases hr : routeAccess (direction i) s.cfg s.env with
  | raise e => simp
  | access b => cases i <;> simp

end Sys2Proof.Machine
end

