-- ==== Sys2Proof/Laws/Decode.lean ====
section
/-! SUPPORT. The fields of an instruction word, the byte layout, and what a decoded word is. -/

namespace Sys2Proof

/-! ### Bytes and words -/

theorem wordOfBytes_bytesOfWord (isa : Isa) (w : Word) (b0 b1 b2 b3 : Byte)
    (h : bytesOfWord isa w = [b0, b1, b2, b3]) : wordOfBytes isa b0 b1 b2 b3 = w := by
  cases isa <;> simp only [bytesOfWord, List.cons.injEq] at h <;> obtain ⟨rfl, rfl, rfl, rfl, -⟩ := h <;>
    (simp only [wordOfBytes]
     apply BitVec.eq_of_getLsbD_eq
     intro i hi
     simp only [BitVec.getLsbD_append, BitVec.getLsbD_extractLsb']
     interval_cases i <;> simp)

theorem bytesOfWord_wordOfBytes (isa : Isa) (b0 b1 b2 b3 : Byte) :
    bytesOfWord isa (wordOfBytes isa b0 b1 b2 b3) = [b0, b1, b2, b3] := by
  cases isa <;> simp only [wordOfBytes, bytesOfWord, List.cons.injEq] <;> refine ⟨?_, ?_, ?_, ?_, trivial⟩ <;>
   (apply BitVec.eq_of_getLsbD_eq
    intro i hi
    simp only [BitVec.getLsbD_append, BitVec.getLsbD_extractLsb']
    interval_cases i <;> simp)

/-! ### The fields of an encoded transfer (R83) -/

/-- Every field of an encoded transfer reads back as what was put in. -/
theorem encodeTransfer_fields (top : BitVec 4) (l : BitVec 1) (t : BitVec 4) (r : SysReg) :
    (encodeTransfer top l t r).extractLsb' 28 4 = top ∧ (encodeTransfer top l t r).extractLsb' 24 4 = 0b1110#4 ∧
    (encodeTransfer top l t r).extractLsb' 12 4 = t ∧ SysReg.ofWord (encodeTransfer top l t r) = r ∧
    (encodeTransfer top l t r).getLsbD 4 = true ∧ (encodeTransfer top l t r).getLsbD 20 = l.getLsbD 0 := by
  obtain ⟨a, b, c, d, e⟩ := r
  simp only [encodeTransfer, SysReg.ofWord, SysReg.mk.injEq]
  refine ⟨?_, ?_, ?_, ⟨?_, ?_, ?_, ?_, ?_⟩, ?_, ?_⟩
  all_goals first
    | (apply BitVec.eq_of_getLsbD_eq
       intro i hi
       simp only [BitVec.getLsbD_append, BitVec.getLsbD_extractLsb']
       interval_cases i <;> simp)
    | (simp only [BitVec.getLsbD_append]; simp)

/-- A word with the fixed bits of a transfer is its fields put together. -/
theorem word_eq_encodeTransfer (w : Word) (h24 : w.extractLsb' 24 4 = 0b1110#4) (h4 : w.getLsbD 4 = true) :
    w = encodeTransfer (w.extractLsb' 28 4) (w.extractLsb' 20 1) (w.extractLsb' 12 4) (SysReg.ofWord w) := by
  have hbit : (0b1#1) = w.extractLsb' 4 1 := by
    apply BitVec.eq_of_getLsbD_eq
    intro i hi
    interval_cases i
    simp [h4]
  simp only [encodeTransfer, SysReg.ofWord]
  rw [← h24, hbit]
  apply BitVec.eq_of_getLsbD_eq
  intro i hi
  simp only [BitVec.getLsbD_append, BitVec.getLsbD_extractLsb']
  interval_cases i <;> simp

/-! ### Conditions and registers -/

/-- A `cond` field stands for a condition exactly when it is that condition's. -/
theorem Cond.ofBits_eq_some (b : BitVec 4) (c : Cond) : Cond.ofBits b = some c ↔ b = c.bits := by
  revert b c
  intro b c
  cases c <;> revert b <;> decide

/-- 0b1111 alone stands for no condition (R83). -/
theorem Cond.ofBits_eq_none (b : BitVec 4) : Cond.ofBits b = none ↔ b = 0b1111#4 := by
  revert b
  decide

/-- An `Rt` field names a register exactly when it is its number. -/
theorem Reg.ofBits_eq_some (b : BitVec 4) (t : Reg) : Reg.ofBits b = some t ↔ b.toNat = t.val := by
  revert b t
  decide

/-- `t = UInt(Rt)` (R85). -/
theorem Reg.bits_eq_iff (b : BitVec 4) (t : Reg) : Reg.bits t = b ↔ b.toNat = t.val := by
  revert b t
  decide

/-! ### What a decoded transfer is -/

/-- The part A32 and T32 share decodes to an instruction exactly when the word is that instruction's fields under its own
bits [31:28]. -/
theorem decodeTransfer_eq_ok (f : Form) (w : Word) (i : Instr) :
    decodeTransfer f w = .ok i ↔
      i.form = f ∧ i.wellFormed = true ∧
        w = encodeTransfer (w.extractLsb' 28 4) i.lBit (Reg.bits i.rt) SysReg.ttbcr := by
  constructor
  · intro h
    unfold decodeTransfer at h
    split at h
    · cases h
    · rename_i h1
      rw [not_or, not_not, Bool.not_eq_false] at h1
      split at h
      · cases h
      · rename_i h2
        rw [not_not] at h2
        split at h
        · cases h
        · rename_i t ht
          rw [Reg.ofBits_eq_some] at ht
          split at h
          · cases h
          · rename_i hadm
            have hw := word_eq_encodeTransfer w h1.1 h1.2
            rw [h2, ← (Reg.bits_eq_iff _ t).2 ht] at hw
            have hl : ∀ b : BitVec 1, w.getLsbD 20 = b.getLsbD 0 → w.extractLsb' 20 1 = b := by
              intro b hb
              apply BitVec.eq_of_getLsbD_eq
              intro j hj
              interval_cases j
              simpa using hb
            split at h <;> injection h with h <;> subst h <;> rename_i h20
            · rw [hl 1 (by simpa using h20)] at hw
              exact ⟨rfl, by simpa [Instr.wellFormed, Instr.form, Instr.rt] using hadm, hw⟩
            · rw [hl 0 (by simpa using h20)] at hw
              exact ⟨rfl, by simpa [Instr.wellFormed, Instr.form, Instr.rt] using hadm, hw⟩
  · rintro ⟨hf, hwf, hw⟩
    obtain ⟨-, h24, h12, hr, h4, h20⟩ := encodeTransfer_fields (w.extractLsb' 28 4) i.lBit (Reg.bits i.rt) SysReg.ttbcr
    rw [← hw] at h24 h12 hr h4 h20
    have ht : Reg.ofBits (w.extractLsb' 12 4) = some i.rt := by
      rw [Reg.ofBits_eq_some, ← Reg.bits_eq_iff, h12]
    have h1 : ¬ (w.extractLsb' 24 4 ≠ 0b1110#4 ∨ w.getLsbD 4 = false) := by
      rw [h24, h4]
      decide
    have h2 : ¬ SysReg.ofWord w ≠ SysReg.ttbcr := not_not.2 hr
    unfold decodeTransfer
    rw [if_neg h1, if_neg h2, ht]
    subst hf
    have h3 : ¬ (i.form.admits i.rt = false) := by
      rw [show i.form.admits i.rt = true from hwf]
      decide
    simp only [if_neg h3, h20]
    cases i <;> simp [Instr.lBit, Instr.form, Instr.rt]

/-- A word decodes to an instruction exactly when it is that instruction's encoding. -/
theorem decodeWord_eq_ok (isa : Isa) (w : Word) (i : Instr) :
    decodeWord isa w = .ok i ↔ i.form.isa = isa ∧ i.wellFormed = true ∧ w = encode i := by
  cases isa with
  | a32 =>
    unfold decodeWord
    constructor
    · intro h
      simp only at h
      split at h
      · cases h
      · rename_i c hc
        obtain ⟨hf, hwf, hw⟩ := (decodeTransfer_eq_ok _ _ _).1 h
        rw [(Cond.ofBits_eq_some _ _).1 hc] at hw
        refine ⟨by rw [hf]; rfl, hwf, ?_⟩
        rw [encode, hf]
        exact hw
    · rintro ⟨hi, hwf, hw⟩
      cases hf : i.form with
      | t32 => rw [hf] at hi; cases hi
      | a32 c =>
        have h28 : w.extractLsb' 28 4 = c.bits := by
          rw [hw, encode, hf]
          exact (encodeTransfer_fields _ _ _ _).1
        have hd : decodeTransfer (.a32 c) w = .ok i := by
          rw [decodeTransfer_eq_ok]
          refine ⟨hf, hwf, ?_⟩
          rw [h28]
          rw [encode, hf] at hw
          exact hw
        simp only [(Cond.ofBits_eq_some _ _).2 h28, hd]
  | t32 =>
    unfold decodeWord
    constructor
    · intro h
      simp only at h
      split at h
      · rename_i h28
        obtain ⟨hf, hwf, hw⟩ := (decodeTransfer_eq_ok _ _ _).1 h
        rw [h28] at hw
        refine ⟨by rw [hf]; rfl, hwf, ?_⟩
        rw [encode, hf]
        exact hw
      · cases h
    · rintro ⟨hi, hwf, hw⟩
      cases hf : i.form with
      | a32 c => rw [hf] at hi; cases hi
      | t32 =>
        have h28 : w.extractLsb' 28 4 = 0b1110#4 := by
          rw [hw, encode, hf]
          exact (encodeTransfer_fields _ _ _ _).1
        have hd : decodeTransfer .t32 w = .ok i := by
          rw [decodeTransfer_eq_ok]
          refine ⟨hf, hwf, ?_⟩
          rw [h28]
          rw [encode, hf] at hw
          exact hw
        simp only [h28, hd, if_true]

end Sys2Proof
end

