-- ==== Sys2Proof/Laws/Memory.lean ====
section
/-! SUPPORT. Memory and the TLB: reads after writes, and that every operation keeps the canonical form. -/

namespace Sys2Proof.Machine

/-! ### Memory -/

theorem Memory.read_write_same (m : Memory) (a : Nat) (b : Byte) : Memory.read (Memory.write m a b) a = some b := by
  induction m with
  | nil => simp [Memory.write, Memory.read]
  | cons c rest ih =>
    obtain ⟨k, x⟩ := c
    simp only [Memory.write]
    split
    · simp [Memory.read]
    · split
      · simp [Memory.read]
      · rename_i h1 h2
        simp [Memory.read, Ne.symm h2, ih]

theorem Memory.read_write_other (m : Memory) (a c : Nat) (b : Byte) (h : c ≠ a) :
    Memory.read (Memory.write m a b) c = Memory.read m c := by
  induction m with
  | nil => simp [Memory.write, Memory.read, Ne.symm h]
  | cons d rest ih =>
    obtain ⟨k, x⟩ := d
    simp only [Memory.write]
    split
    · simp [Memory.read, Ne.symm h]
    · split
      · rename_i h1 h2
        subst h2
        simp [Memory.read, Ne.symm h]
      · simp [Memory.read, ih]

/-- An address of a written memory was there before or is the one written. -/
theorem Memory.mem_write (m : Memory) (a : Nat) (b : Byte) (c : Host.Cell) (h : c ∈ Memory.write m a b) :
    c = (a, b) ∨ c ∈ m := by
  induction m with
  | nil => simpa [Memory.write] using h
  | cons d rest ih =>
    obtain ⟨k, x⟩ := d
    simp only [Memory.write] at h
    split at h
    · simpa using h
    · split at h
      · rcases List.mem_cons.1 h with h | h
        · exact .inl h
        · exact .inr (List.mem_cons_of_mem _ h)
      · rcases List.mem_cons.1 h with h | h
        · exact .inr (h ▸ List.mem_cons_self)
        · exact (ih h).imp id (List.mem_cons_of_mem _)

/-- Placing a byte keeps the canonical form. -/
theorem Memory.wf_write (m : Memory) (a : Nat) (b : Byte) (ha : a < 2 ^ 32) (h : Memory.wf m) :
    Memory.wf (Memory.write m a b) := by
  refine ⟨?_, fun c hc => ?_⟩
  · have hs := h.1
    clear h
    induction m with
    | nil => simp [Memory.write]
    | cons d rest ih =>
      obtain ⟨k, x⟩ := d
      rw [List.pairwise_cons] at hs
      simp only [Memory.write]
      split
      · rename_i hk
        refine List.pairwise_cons.2 ⟨fun c hc => ?_, List.pairwise_cons.2 hs⟩
        rcases List.mem_cons.1 hc with rfl | hc
        · exact hk
        · exact lt_trans hk (hs.1 c hc)
      · split
        · rename_i h1 h2
          subst h2
          exact List.pairwise_cons.2 ⟨hs.1, hs.2⟩
        · rename_i h1 h2
          refine List.pairwise_cons.2 ⟨fun c hc => ?_, ih hs.2⟩
          rcases Memory.mem_write rest a b c hc with rfl | hc
          · exact lt_of_le_of_ne (not_lt.1 h1) (Ne.symm h2)
          · exact hs.1 c hc
  · rcases Memory.mem_write m a b c hc with rfl | hc
    · exact ha
    · exact h.2 c hc

/-- Placing a list of bytes keeps the canonical form. -/
theorem Memory.wf_writeBytes (bytes : List Byte) : ∀ (m : Memory) (a : Word), Memory.wf m →
    Memory.wf (Memory.writeBytes m a bytes) := by
  induction bytes with
  | nil => exact fun m a h => h
  | cons b rest ih => exact fun m a h => ih _ _ (Memory.wf_write m a.toNat b a.isLt h)

/-- Reading bytes either yields so many, or stops at one that nothing has placed. -/
theorem Memory.readBytes_length (mm : MemoryModel) (m : Memory) (n : Nat) : ∀ (a : Word) (bs : List Byte),
    Memory.readBytes mm m a n = .ok bs → bs.length = n := by
  induction n with
  | zero => intro a bs h; simp [Memory.readBytes] at h; simp [← h]
  | succ k ih =>
    intro a bs h
    simp only [Memory.readBytes] at h
    split at h
    · cases h
    · split at h
      · cases h
      · split at h
        · cases h
        · rename_i hb
          cases h
          simp [ih _ _ hb]

/-- The byte order changes no length. -/
@[simp] theorem MemoryModel.order_length (mm : MemoryModel) (bs : List Byte) : (mm.order bs).length = bs.length := by
  unfold MemoryModel.order
  split <;> simp

/-- Putting bytes into memory order and taking them out again gives them back. -/
@[simp] theorem MemoryModel.order_order (mm : MemoryModel) (bs : List Byte) : mm.order (mm.order bs) = bs := by
  unfold MemoryModel.order
  split <;> simp

theorem readUnit_length (mm : MemoryModel) (m : Memory) (a : Word) (n : Nat) (bs : List Byte)
    (h : readUnit mm m a n = .ok bs) : bs.length = n := by
  unfold readUnit at h
  split at h
  · cases h
  · rename_i hb
    cases h
    rw [MemoryModel.order_length, Memory.readBytes_length _ _ _ _ _ hb]

/-- A fetch reads a byte that the map has and that something has placed, and then the next. -/
theorem Memory.readBytes_succ (mm : MemoryModel) (m : Memory) (a : Word) (n : Nat) (b : Byte)
    (ha : mm.isAbsent a = false) (hb : Memory.read m a.toNat = some b) :
    Memory.readBytes mm m a (n + 1) =
      match Memory.readBytes mm m (a + 1) n with
      | .error e => .error e
      | .ok bs => .ok (b :: bs) := by
  rw [Memory.readBytes, ha, hb]
  rfl

/-- A fetch that succeeds yields four bytes (R87). -/
theorem fetch_length (s : State) (bs : List Byte) (h : fetch s = .ok bs) : bs.length = 4 := by
  unfold fetch at h
  split at h
  · split at h
    · exact readUnit_length _ _ _ _ _ h
    · split at h
      · cases h
      · rename_i hl
        split at h
        · cases h
        · rename_i hu
          cases h
          rw [List.length_append, readUnit_length _ _ _ _ _ hl, readUnit_length _ _ _ _ _ hu]
  · cases h

/-- Four bytes placed at consecutive addresses are read back, where the map leaves nothing out. -/
theorem Memory.readBytes_writeBytes (mm : MemoryModel) (hm : mm.absent = []) (m : Memory) (a : Word) (c0 c1 c2 c3 : Byte) :
    Memory.readBytes mm (Memory.writeBytes m a [c0, c1, c2, c3]) a 4 = .ok [c0, c1, c2, c3] := by
  have ha : ∀ x, mm.isAbsent x = false := fun x => by simp [MemoryModel.isAbsent, hm]
  have h1 : a.toNat ≠ (a + 1).toNat := by bv_omega
  have h2 : a.toNat ≠ (a + 1 + 1).toNat := by bv_omega
  have h3 : a.toNat ≠ (a + 1 + 1 + 1).toNat := by bv_omega
  have h4 : (a + 1).toNat ≠ (a + 1 + 1).toNat := by bv_omega
  have h5 : (a + 1).toNat ≠ (a + 1 + 1 + 1).toNat := by bv_omega
  have h6 : (a + 1 + 1).toNat ≠ (a + 1 + 1 + 1).toNat := by bv_omega
  simp only [Memory.readBytes, Memory.writeBytes, ha, Bool.false_eq_true, if_false, Memory.read_write_same,
    Memory.read_write_other _ _ _ _ h1, Memory.read_write_other _ _ _ _ h2, Memory.read_write_other _ _ _ _ h3,
    Memory.read_write_other _ _ _ _ h4, Memory.read_write_other _ _ _ _ h5, Memory.read_write_other _ _ _ _ h6]

/-- An address rounded down is a multiple. -/
theorem alignDown_mod (unit : Nat) (pc : Word) : (alignDown unit pc).toNat % unit = 0 := by
  have hlt : pc.toNat - pc.toNat % unit < 2 ^ 32 := lt_of_le_of_lt (Nat.sub_le _ _) pc.isLt
  rw [alignDown, BitVec.toNat_ofNat, Nat.mod_eq_of_lt hlt]
  exact Nat.mod_eq_zero_of_dvd (Nat.dvd_sub_mod _)

/-- The word that `withFetchWord` places is what the next step fetches, whatever the byte order, the alignment and the map
were (log 14). -/
theorem fetch_withFetchWord (s : State) (nbits w : Nat) :
    fetch (s.withFetchWord nbits w) = .ok (bytesOfWord .a32 (BitVec.ofNat 32 (w % 2 ^ nbits))) := by
  unfold fetch
  rw [if_pos (show (s.withFetchWord nbits w).pc.toNat % (s.withFetchWord nbits w).env.memoryModel.unit
    (s.withFetchWord nbits w).isa = 0 from alignDown_mod s.env.memoryModel.a32Unit s.pc)]
  show readUnit _ _ _ 4 = _
  obtain ⟨c0, c1, c2, c3, hc⟩ : ∃ c0 c1 c2 c3,
      s.env.memoryModel.order (bytesOfWord .a32 (BitVec.ofNat 32 (w % 2 ^ nbits))) = [c0, c1, c2, c3] := by
    unfold MemoryModel.order
    split <;> exact ⟨_, _, _, _, rfl⟩
  have hb := Memory.readBytes_writeBytes { s.env.memoryModel with absent := [] } rfl s.mem
    (alignDown s.env.memoryModel.a32Unit s.pc) c0 c1 c2 c3
  unfold readUnit
  simp only [State.withFetchWord, hc, hb]
  rw [← hc]
  exact congrArg _ (MemoryModel.order_order s.env.memoryModel _)

/-- A placed instruction word leaves the state's memory in canonical form. -/
theorem withFetchWord_mem_wf (s : State) (nbits w : Nat) (h : Memory.wf s.mem) :
    Memory.wf (s.withFetchWord nbits w).mem :=
  Memory.wf_writeBytes _ _ _ h

/-! ### The TLB -/

/-- Exactly the address filled joins the TLB. -/
theorem Tlb.mem_fill (t : Tlb) (va a : Word) : a ∈ Tlb.fill t va ↔ a = va ∨ a ∈ t := by
  induction t with
  | nil => simp [Tlb.fill]
  | cons k rest ih =>
    simp only [Tlb.fill]
    split
    · simp
    · split
      · rename_i h1 h2
        subst h2
        simp
      · simp only [List.mem_cons, ih]
        tauto

/-- Exactly the address evicted leaves the TLB. -/
theorem Tlb.mem_evict (t : Tlb) (va a : Word) : a ∈ Tlb.evict t va ↔ a ≠ va ∧ a ∈ t := by
  simp [Tlb.evict, and_comm]

theorem Tlb.wf_fill (t : Tlb) (va : Word) (h : Tlb.wf t) : Tlb.wf (Tlb.fill t va) := by
  induction t with
  | nil => simp [Tlb.fill, Tlb.wf]
  | cons k rest ih =>
    have hs := List.pairwise_cons.1 h
    simp only [Tlb.fill]
    split
    · rename_i hk
      refine List.pairwise_cons.2 ⟨fun c hc => ?_, h⟩
      rcases List.mem_cons.1 hc with rfl | hc
      · exact hk
      · exact lt_trans hk (hs.1 c hc)
    · split
      · exact h
      · rename_i h1 h2
        refine List.pairwise_cons.2 ⟨fun c hc => ?_, ih hs.2⟩
        rcases (Tlb.mem_fill rest va c).1 hc with rfl | hc
        · exact lt_of_le_of_ne (not_lt.1 h1) (fun e => h2 (BitVec.eq_of_toNat_eq e.symm))
        · exact hs.1 c hc

theorem Tlb.wf_evict (t : Tlb) (va : Word) (h : Tlb.wf t) : Tlb.wf (Tlb.evict t va) :=
  List.Pairwise.filter _ h

end Sys2Proof.Machine
end

