-- ==== Sys2Proof/Laws/PerInstr.lean ====
section
/-! SUPPORT. The family TableWord: the encoding of every instruction carries the fixed bits of its row of the opcode table
(R83) and its own register number. -/

namespace Sys2Proof.Laws.TableWord

/-- The row's match value. -/
def tableMatch (i : Instr) : Word :=
  match i with
  | .mrcTtbcr _ _ => 0x0E120F50#32
  | .mcrTtbcr _ _ => 0x0E020F50#32

/-- Under the table's mask an instruction's encoding is its row's match value, and bits [15:12] are its register. -/
def Statement (i : Instr) : Prop :=
  encode i &&& 0x0FFF0FFF#32 = tableMatch i ∧ ((encode i).extractLsb' 12 4).toNat = i.rt.val

theorem mrcTtbcr (f : Form) (t : Reg) : Statement (.mrcTtbcr f t) := by
  unfold Statement
  cases f with
  | a32 c => cases c <;> revert t <;> decide
  | t32 => revert t; decide

theorem mcrTtbcr (f : Form) (t : Reg) : Statement (.mcrTtbcr f t) := by
  unfold Statement
  cases f with
  | a32 c => cases c <;> revert t <;> decide
  | t32 => revert t; decide

end Sys2Proof.Laws.TableWord
end

