-- ==== Sys2Proof/Laws/Step.lean ====
section
/-! SUPPORT. Everything a step can do, said once, and small lemmas about the inputs. -/

namespace Sys2Proof.Machine

/-- A translation request changes `lastTranslation` alone. -/
theorem translate_next (sec : Security) (va : Word) (choice : Nat) (s t : State)
    (h : translate sec va choice s = .next t) : ∃ r, t = { s with lastTranslation := some r } := by
  unfold translate settle at h
  split at h <;> cases h
  · exact ⟨_, rfl⟩
  · exact ⟨_, rfl⟩

/-! ### Fetching -/

/-- A fetch does not read the schedule. -/
@[simp] theorem fetch_inputs (s : State) (l : List Input) : fetch { s with inputs := l } = fetch s := rfl

/-- A fetch without translation changes nothing. -/
theorem fetchPlain_eq_next (s u : State) (bytes : List Byte) :
    fetchPlain s = .next (u, bytes) ↔ u = s ∧ fetch s = .ok bytes := by
  unfold fetchPlain
  cases fetch s with
  | error f => simp
  | ok bs => simp [eq_comm]

/-- A unit of a translated fetch reads the bytes at the drawn address, after the translation request. -/
theorem fetchUnit_eq_next (sec : Security) (va : Word) (n : Nat) (d : FetchDraw) (s u : State) (bytes : List Byte) :
    fetchUnit sec va n d s = .next (u, bytes) ↔
      translate sec va d.choice s = .next u ∧ readUnit u.env.memoryModel u.mem d.pa n = .ok bytes := by
  unfold fetchUnit
  cases translate sec va d.choice s with
  | fault f => simp
  | refused r => simp
  | next w =>
    constructor
    · intro h
      dsimp only at h
      split at h
      · cases h
      · rename_i bs hb
        cases h
        exact ⟨rfl, hb⟩
    · rintro ⟨hw, hb⟩
      cases hw
      simp only [hb]

theorem fetchUnit_next (sec : Security) (va : Word) (n : Nat) (d : FetchDraw) (s u : State) (bytes : List Byte)
    (h : fetchUnit sec va n d s = .next (u, bytes)) : ∃ r, u = { s with lastTranslation := some r } :=
  translate_next sec va d.choice s u ((fetchUnit_eq_next sec va n d s u bytes).1 h).1

/-- A translated fetch changes `lastTranslation` alone. -/
theorem fetchTranslated_next (sec : Security) (first second : FetchDraw) (s u : State) (bytes : List Byte)
    (h : fetchTranslated sec first second s = .next (u, bytes)) : ∃ r, u = { s with lastTranslation := some r } := by
  unfold fetchTranslated at h
  split at h
  · split at h
    · exact fetchUnit_next _ _ _ _ _ _ _ h
    · split at h
      · cases h
      · cases h
      · rename_i w lower h1
        split at h
        · cases h
        · cases h
        · rename_i x upper h2
          cases h
          obtain ⟨r, rfl⟩ := fetchUnit_next _ _ _ _ _ _ _ h1
          obtain ⟨r', rfl⟩ := fetchUnit_next _ _ _ _ _ _ _ h2
          exact ⟨r', rfl⟩
  · cases h

/-- The state after a fetch differs from the one before in the schedule and in `lastTranslation` alone. -/
theorem Fetches.state {s u : State} {bytes : List Byte} (h : Fetches s u bytes) :
    ∃ rest l, u = { s with inputs := rest, lastTranslation := l } ∧ s.runsInstruction = true ∧ rest = s.inputs.tail := by
  unfold State.runsInstruction
  rcases h with ⟨hs, h⟩ | ⟨rest, hs, h⟩ | ⟨sec, x, y, rest, hs, h⟩
  · obtain ⟨rfl, -⟩ := (fetchPlain_eq_next _ _ _).1 h
    exact ⟨u.inputs, u.lastTranslation, rfl, by rw [hs], by rw [hs]; rfl⟩
  · obtain ⟨rfl, -⟩ := (fetchPlain_eq_next _ _ _).1 h
    exact ⟨rest, s.lastTranslation, rfl, by rw [hs]; rfl, by rw [hs]; rfl⟩
  · obtain ⟨r, rfl⟩ := fetchTranslated_next _ _ _ _ _ _ h
    exact ⟨rest, some r, rfl, by rw [hs]; rfl, by rw [hs]; rfl⟩

/-- A step that fetches runs what it has fetched. -/
theorem step_of_fetches {s u : State} {bytes : List Byte} (h : Fetches s u bytes) :
    step s = runFetched (.next (u, bytes)) := by
  rcases h with ⟨hs, h⟩ | ⟨rest, hs, h⟩ | ⟨sec, x, y, rest, hs, h⟩ <;> unfold step <;> rw [hs, ← h]

/-- A step that fetches the bytes of an instruction is exec of it on the state after the fetch. -/
theorem step_of_fetches_decode {s u : State} {bytes : List Byte} {i : Instr} (h : Fetches s u bytes)
    (hd : decode s.isa bytes = .ok i) : step s = exec i u := by
  obtain ⟨rest, l, rfl, -, -⟩ := h.state
  rw [step_of_fetches h, runFetched]
  simp only [hd]

/-- A fetched instruction that completes was decoded. -/
theorem runFetched_next (f : Fetched) (t : State) (h : runFetched f = .next t) :
    ∃ u bytes i, f = .next (u, bytes) ∧ decode u.isa bytes = .ok i ∧ exec i u = .next t := by
  unfold runFetched at h
  split at h
  · cases h
  · cases h
  · rename_i u bytes
    cases hd : decode u.isa bytes with
    | error e => simp [hd] at h
    | ok i => exact ⟨u, bytes, i, rfl, hd, by simpa [hd] using h⟩

/-! ### The step -/

/-- Everything a step that answers a next state has done: the PE has run the instruction it fetched, or the input at the head
of the schedule has been applied. -/
theorem step_next_cases (s t : State) (h : step s = .next t) :
    (∃ u bytes i, Fetches s u bytes ∧ decode s.isa bytes = .ok i ∧ exec i u = .next t) ∨
    (∃ i rest, i.runsInstruction = false ∧ s.inputs = i :: rest ∧ applyInput i { s with inputs := rest } = .next t) := by
  have run : ∀ f, runFetched f = .next t → (∀ u bytes, f = .next (u, bytes) → Fetches s u bytes) →
      ∃ u bytes i, Fetches s u bytes ∧ decode s.isa bytes = .ok i ∧ exec i u = .next t := by
    intro f hf hF
    obtain ⟨u, bytes, i, hu, hd, he⟩ := runFetched_next f t hf
    have hFu := hF u bytes hu
    obtain ⟨rest, l, rfl, -, -⟩ := hFu.state
    exact ⟨_, bytes, i, hFu, hd, he⟩
  unfold step at h
  split at h
  · rename_i hs
    exact .inl (run _ h fun u bytes hu => .inl ⟨hs, hu⟩)
  · rename_i rest hs
    exact .inl (run _ h fun u bytes hu => .inr (.inl ⟨rest, hs, hu⟩))
  · rename_i sec x y rest hs
    exact .inl (run _ h fun u bytes hu => .inr (.inr ⟨sec, x, y, rest, hs, hu⟩))
  · rename_i i rest hne hnt hs
    refine .inr ⟨i, rest, ?_, hs, h⟩
    cases i <;> first | rfl | exact absurd rfl hne | exact absurd rfl (hnt _ _ _)

/-- An input that runs no instruction is applied to the state whose schedule is the rest. -/
theorem step_input (s : State) (i : Input) (rest : List Input) (hi : i.runsInstruction = false) :
    step { s with inputs := i :: rest } = applyInput i { s with inputs := rest } := by
  cases i <;> first | rfl | cases hi

/-- An instruction that a program lists has its own bytes. -/
@[simp] theorem listed_bytes (i : Instr) : (listed i).bytes = encodeBytes i := by
  cases i <;> rfl

/-- A step that is an access fetches, so nothing else can be at the head of the schedule. -/
theorem RunsAccess.runsInstruction {s : State} {p : ListedAccess} (h : RunsAccess s p) : s.runsInstruction = true := by
  obtain ⟨u, bytes, i, hf, -⟩ := h
  obtain ⟨-, -, -, hr, -⟩ := hf.state
  exact hr

/-- A scheduled event that has no state after it is a translation that stops. -/
theorem applyInput_cases (i : Input) (s : State) : (∃ t, applyInput i s = .next t) ∨ TranslationStops (applyInput i s) := by
  cases i
  case translate sec va choice =>
    simp only [applyInput, translate]
    cases resolve s ((s.bank (inForceBank s.cfg s.env sec)).pick choice) va with
    | cached a => exact .inl ⟨_, rfl⟩
    | walk w => exact .inl ⟨_, rfl⟩
    | translationFault a x => exact .inr (.inl ⟨a, some x, rfl⟩)
    | noRegion a => exact .inr (.inl ⟨a, none, rfl⟩)
    | reservedShareability x => exact .inr (.inr ⟨x, rfl⟩)
  all_goals exact .inl ⟨_, rfl⟩

/-- What a step that runs no instruction can come to. -/
theorem step_event_cases (s : State) (h : s.runsInstruction = false) :
    (∃ t, step s = .next t) ∨ TranslationStops (step s) := by
  unfold State.runsInstruction at h
  split at h
  · cases h
  · rename_i i rest hs
    have : s = { s with inputs := i :: rest } := by rw [← hs]
    rw [this, step_input _ _ _ h]
    exact applyInput_cases _ _

/-! ### Runs -/

theorem run_zero (s : State) : run 0 s = .next s := rfl

/-- A run of one step more is that step, then the rest. -/
theorem run_succ (n : Nat) (s : State) :
    run (n + 1) s =
      match step s with
      | .next u => run n u
      | .fault r => .fault r
      | .refused r => .refused r := rfl

theorem coreRun_next (M : Host.Core) (k : Nat) (s u : M.State) (h : M.step s = .next u) :
    M.run (k + 1) s = M.run k u := by
  rw [Host.Core.run, h]

theorem coreRun_fault (M : Host.Core) (k : Nat) (s : M.State) (r : M.Fault) (h : M.step s = .fault r) :
    M.run (k + 1) s = .fault r := by
  rw [Host.Core.run, h]

theorem coreRun_refused (M : Host.Core) (k : Nat) (s : M.State) (r : M.Refusal) (h : M.step s = .refused r) :
    M.run (k + 1) s = .refused r := by
  rw [Host.Core.run, h]

/-- A run is the host's run of the machine. -/
theorem run_eq_host (n : Nat) : ∀ s : State, run n s = Host.Core.run Sys2Proof.core n s := by
  induction n with
  | zero => exact fun s => rfl
  | succ k ih =>
    intro s
    rw [run_succ]
    cases h : step s with
    | next u => exact (ih u).trans (coreRun_next Sys2Proof.core k s u h).symm
    | fault r => exact (coreRun_fault Sys2Proof.core k s r h).symm
    | refused r => exact (coreRun_refused Sys2Proof.core k s r h).symm

/-! ### The inputs -/

@[simp] theorem contextSync_bank (s : State) (b : Bank) :
    (contextSync s).bank b = { s.bank b with stale := [] } := by cases b <;> rfl

/-- A storage with nothing stale leaves a translation one value to use. -/
@[simp] theorem Ttbcr.pick_nil (v : Word) (choice : Nat) : (Ttbcr.mk v []).pick choice = v := by
  cases choice <;> simp [Ttbcr.pick]

/-- An environment change that leaves the reachable name alone changes `env` alone (D18). -/
theorem changeEnv_same (e : Env) (d : Word) (s : State) (h : mappedBank s.cfg e = mappedBank s.cfg s.env) :
    changeEnv e d s = { s with env := e } := by
  simp [changeEnv, h]

/-- What an environment change does to the storages (D18). -/
theorem changeEnv_bank (e : Env) (d : Word) (s : State) (b : Bank) :
    (changeEnv e d s).bank b = s.bank b ∨
    (mappedBank s.cfg e ≠ mappedBank s.cfg s.env ∧ b = mappedBank s.cfg e ∧ ((changeEnv e d s).bank b).value = d) := by
  unfold changeEnv
  split
  · exact .inl (by cases b <;> rfl)
  · rename_i h
    by_cases hb : b = mappedBank s.cfg e
    · subst hb
      exact .inr ⟨h, rfl, by simp⟩
    · exact .inl (by rw [bank_setBank_other _ _ _ _ hb]; cases b <;> rfl)

@[simp] theorem changeEnv_env (e : Env) (d : Word) (s : State) : (changeEnv e d s).env = e := by
  unfold changeEnv; split <;> simp

@[simp] theorem changeEnv_regs (e : Env) (d : Word) (s : State) : (changeEnv e d s).regs = s.regs := by
  unfold changeEnv; split <;> simp

@[simp] theorem changeEnv_pc (e : Env) (d : Word) (s : State) : (changeEnv e d s).pc = s.pc := by
  unfold changeEnv; split <;> simp

@[simp] theorem changeEnv_isa (e : Env) (d : Word) (s : State) : (changeEnv e d s).isa = s.isa := by
  unfold changeEnv; split <;> simp

@[simp] theorem changeEnv_flags (e : Env) (d : Word) (s : State) : (changeEnv e d s).flags = s.flags := by
  unfold changeEnv; split <;> simp

@[simp] theorem changeEnv_itCond (e : Env) (d : Word) (s : State) : (changeEnv e d s).itCond = s.itCond := by
  unfold changeEnv; split <;> simp

@[simp] theorem changeEnv_ttbr0 (e : Env) (d : Word) (s : State) : (changeEnv e d s).ttbr0 = s.ttbr0 := by
  unfold changeEnv; split <;> simp

@[simp] theorem changeEnv_ttbr1 (e : Env) (d : Word) (s : State) : (changeEnv e d s).ttbr1 = s.ttbr1 := by
  unfold changeEnv; split <;> simp

@[simp] theorem changeEnv_ttbcr2 (e : Env) (d : Word) (s : State) : (changeEnv e d s).ttbcr2 = s.ttbcr2 := by
  unfold changeEnv; split <;> simp

@[simp] theorem changeEnv_tcrEl1Hi (e : Env) (d : Word) (s : State) : (changeEnv e d s).tcrEl1Hi = s.tcrEl1Hi := by
  unfold changeEnv; split <;> simp

@[simp] theorem changeEnv_lastTranslation (e : Env) (d : Word) (s : State) :
    (changeEnv e d s).lastTranslation = s.lastTranslation := by
  unfold changeEnv; split <;> simp

@[simp] theorem changeEnv_cfg (e : Env) (d : Word) (s : State) : (changeEnv e d s).cfg = s.cfg := by
  unfold changeEnv; split <;> simp

@[simp] theorem changeEnv_mem (e : Env) (d : Word) (s : State) : (changeEnv e d s).mem = s.mem := by
  unfold changeEnv; split <;> simp

@[simp] theorem changeEnv_tlb (e : Env) (d : Word) (s : State) : (changeEnv e d s).tlb = s.tlb := by
  unfold changeEnv; split <;> simp

@[simp] theorem changeEnv_inputs (e : Env) (d : Word) (s : State) : (changeEnv e d s).inputs = s.inputs := by
  unfold changeEnv; split <;> simp

/-- What a TCR_EL1 write does to the storages: the mapped one takes bits [31:0], the others stay (R13, R12). -/
theorem writeTcrEl1_bank (v : BitVec 64) (s : State) (b : Bank) :
    (writeTcrEl1 v s).bank b =
      if b = mappedBank s.cfg s.env then (s.bank b).write (v.setWidth 32) else s.bank b := by
  have h : ∀ u : State, ({ u with tcrEl1Hi := v.extractLsb' 32 32 } : State).bank b = u.bank b := by
    intro u; cases b <;> rfl
  rw [writeTcrEl1, h, State.writeBank, bank_setBank]
  split
  · rename_i e; rw [e]
  · rfl

/-- A reset replaces memory and the TLB by the draw's. -/
theorem resetArch_mem (a : Bool) (d : Arch) : (resetArch a d).mem = d.mem := by
  unfold resetArch; split
  · split <;> rfl
  · rfl

theorem resetArch_tlb (a : Bool) (d : Arch) : (resetArch a d).tlb = d.tlb := by
  unfold resetArch; split
  · split <;> rfl
  · rfl

theorem resetArch_env (a : Bool) (d : Arch) : (resetArch a d).env = d.env := by
  unfold resetArch; split
  · split <;> rfl
  · rfl

/-- The frame of either instruction on the fields that neither of them writes (R106). -/
theorem exec_next_frame (i : Instr) (s u : State) (h : exec i s = .next u) :
    u.pc = s.pc + 4 ∧ u.isa = s.isa ∧ u.flags = s.flags ∧ u.itCond = s.itCond ∧ u.env = s.env ∧ u.mem = s.mem ∧
    u.tlb = s.tlb ∧ u.cfg = s.cfg ∧ u.inputs = s.inputs := by
  rcases exec_next_cases i s u h with rfl | ⟨f, t, b, -, -, rfl⟩ | ⟨f, t, b, -, -, -, rfl⟩ <;>
    simp [State.writeBank]

end Sys2Proof.Machine
end

