-- ==== Sys2Proof/Laws/Ttbcr.lean ====
section
/-! SUPPORT. The bits of TTBCR: formats, disable bits, reserved bits and what a read returns. -/

namespace Sys2Proof.Machine

variable (cfg : Cfg) (v : Word)

theorem tableFormat_eq_short : tableFormat v = .shortDescriptor ↔ eae v = false := by
  cases h : eae v <;> simp [tableFormat, h]

theorem tableFormat_eq_long : tableFormat v = .longDescriptor ↔ eae v = true := by
  cases h : eae v <;> simp [tableFormat, h]

/-- A one-bit field is 1 exactly when its bit is set. -/
theorem extractLsb'_one_eq (i : Nat) : (v.extractLsb' i 1 == 1#1) = v.getLsbD i := by
  have h : v.extractLsb' i 1 = BitVec.ofBool (v.getLsbD i) := by
    apply BitVec.eq_of_getLsbD_eq
    intro j hj
    have : j = 0 := by omega
    subst this
    simp
  rw [h]
  cases v.getLsbD i <;> rfl

/-- The four walk disable bits by number (R64). -/
theorem walkDisabled_eq (x : TtbrNum) :
    walkDisabled v x =
      if eae v then (if x = .ttbr0 then v.getLsbD 7 else v.getLsbD 23)
      else (if x = .ttbr0 then v.getLsbD 4 else v.getLsbD 5) := by
  cases h : eae v <;> cases x <;>
    simp only [walkDisabled, h, ShortFields.ofWord, LongFields.ofWord, if_true, reduceCtorEq, if_false] <;>
    exact extractLsb'_one_eq v _

/-- T2E by number (R36, R41). -/
theorem t2e_eq : t2e cfg v = (cfg.featAA32HPD && eae v && v.getLsbD 6) := by
  rw [← extractLsb'_one_eq v 6]
  rfl

theorem ttbcr2Enabled_eq : ttbcr2Enabled cfg v = (cfg.featAA32HPD && eae v && v.getLsbD 6) := by
  rw [ttbcr2Enabled, t2e_eq]
  cases eae v <;> cases cfg.featAA32HPD <;> simp

/-- The RES0 masks are the RES0 positions (R40). -/
theorem res0Mask_getLsbD (i : Nat) (hi : i < 32) : (res0Mask cfg v).getLsbD i = true ↔ IsRes0 cfg v i := by
  unfold res0Mask IsRes0
  cases eae v <;> cases cfg.featAA32HPD <;> interval_cases i <;> simp

/-- What a read returns, bit by bit (R40 (b)). -/
theorem readValue_getLsbD (i : Nat) (hi : i < 32) :
    (readValue cfg v).getLsbD i = (v.getLsbD i && !((res0Mask cfg v).getLsbD i &&
      (if eae v then cfg.res0Long else cfg.res0Short).getLsbD i)) := by
  simp [readValue, hardwiredZero, hi]

/-- The format of a value survives a read: bit [31] is reserved in neither format (R16). -/
theorem eae_readValue : eae (readValue cfg v) = eae v := by
  unfold eae
  rw [readValue_getLsbD cfg v 31 (by decide)]
  have h : (res0Mask cfg v).getLsbD 31 = false := by
    unfold res0Mask
    cases eae v <;> cases cfg.featAA32HPD <;> simp
  rw [h]
  simp

end Sys2Proof.Machine
end

