-- ==== Sys2Proof/Laws/Translation.lean ====
section
/-! SUPPORT. What a translation request comes to, case by case. -/

namespace Sys2Proof.Machine

/-- A scheduled translation settles what its address resolves to under the value in use. -/
theorem step_translate (s : State) (sec : Security) (va : Word) (choice : Nat) (rest : List Input) :
    step { s with inputs := .translate sec va choice :: rest } =
      settle { s with inputs := rest } (resolve s (valueInUse s sec choice) va) := rfl

/-- Without an IMPLEMENTATION DEFINED effect of bit [30], the plain resolution stands (R23). -/
theorem resolve_of_noImpdef (s : State) (v va : Word) (h : NoImpdef v) : resolve s v va = resolvePlain s v va := by
  have hb : (eae v && (LongFields.ofWord v).impl == 1) = false := by
    rw [show ((LongFields.ofWord v).impl == 1) = v.getLsbD 30 from extractLsb'_one_eq v 30]
    rcases h with h | h <;> simp only [h, Bool.false_and, Bool.and_false]
  rw [resolve, hb]
  rfl

theorem resolvePlain_hit (s : State) (v va : Word) (h : va ∈ s.tlb) : resolvePlain s v va = .cached va := by
  rw [resolvePlain, if_pos h]

theorem resolvePlain_miss (s : State) (v va : Word) (x : TtbrNum) (h : va ∉ s.tlb)
    (hx : selectTtbr v va = regionOf x) : resolvePlain s v va = missThrough s v va x := by
  rw [resolvePlain, if_neg h, hx]
  cases x <;> rfl

theorem resolvePlain_noRegion (s : State) (v va : Word) (h : va ∉ s.tlb)
    (hx : selectTtbr v va = .noRegion) : resolvePlain s v va = .noRegion va := by
  rw [resolvePlain, if_neg h, hx]

/-- Every address is in no region or in that of one of the TTBRs. -/
theorem selectTtbr_cases (v va : Word) :
    selectTtbr v va = .noRegion ∨ ∃ x, selectTtbr v va = regionOf x := by
  cases selectTtbr v va with
  | useTtbr0 => exact .inr ⟨.ttbr0, rfl⟩
  | useTtbr1 => exact .inr ⟨.ttbr1, rfl⟩
  | noRegion => exact .inl rfl

/-- In the EAE == 0 format an address is always in the region of one of the TTBRs (R62). -/
theorem selectTtbr_short (v va : Word) (h : eae v = false) : ∃ x, selectTtbr v va = regionOf x := by
  rw [selectTtbr, h]
  cases Config.selectShort (ShortFields.ofWord v).n va with
  | ttbr0 => exact ⟨.ttbr0, rfl⟩
  | ttbr1 => exact ⟨.ttbr1, rfl⟩

theorem walkThrough_short (s : State) (v va : Word) (x : TtbrNum) (h : eae v = false) :
    walkThrough s v va x = .walk (shortWalk s v va x) := by
  rw [walkThrough, (tableFormat_eq_short v).2 h]

/-- The SH field by number (R24, R32). -/
theorem shField_eq (v : Word) (x : TtbrNum) :
    shField v x = if x = .ttbr0 then v.extractLsb' 12 2 else v.extractLsb' 28 2 := by
  cases x <;> rfl

theorem orgnField_eq (v : Word) (x : TtbrNum) :
    orgnField v x = if x = .ttbr0 then v.extractLsb' 10 2 else v.extractLsb' 26 2 := by
  cases x <;> rfl

theorem irgnField_eq (v : Word) (x : TtbrNum) :
    irgnField v x = if x = .ttbr0 then v.extractLsb' 8 2 else v.extractLsb' 24 2 := by
  cases x <;> rfl

/-- The size field by number (R30, R38). -/
theorem tszField_eq (v : Word) (x : TtbrNum) :
    tszField v x = if x = .ttbr0 then v.extractLsb' 0 3 else v.extractLsb' 16 3 := by
  cases x <;> rfl

/-- The contents of a TTBR by name. -/
theorem ttbr_eq (s : State) (x : TtbrNum) : s.ttbr x = if x = .ttbr0 then s.ttbr0 else s.ttbr1 := by
  cases x <;> rfl

/-- 0b01 alone is no Shareability (R24, R32). -/
theorem shareability_eq_none (b : BitVec 2) : shareability b = none ↔ b = 0b01#2 := by
  revert b
  decide

theorem walkThrough_long (s : State) (v va : Word) (x : TtbrNum) (q : Shareability) (h : eae v = true)
    (hq : shareability (shField v x) = some q) :
    walkThrough s v va x =
      .walk (longWalk s v va x ⟨q, cacheability (orgnField v x), cacheability (irgnField v x)⟩) := by
  rw [walkThrough, (tableFormat_eq_long v).2 h]
  simp only [walkAttributes, hq]

theorem walkThrough_reserved (s : State) (v va : Word) (x : TtbrNum) (h : eae v = true)
    (hq : shField v x = 0b01#2) : walkThrough s v va x = .reservedShareability x := by
  rw [walkThrough, (tableFormat_eq_long v).2 h]
  simp only [walkAttributes, (shareability_eq_none _).2 hq]

end Sys2Proof.Machine
end

