-- ==== Sys2Proof/Tests/Slice0.lean ====
section
/-! SUPPORT. Tests from the words and vectors of `spec/95_test_vectors.md`, the smoke test of WellFormed, and one witness for
the hypotheses of every statement. -/

namespace Sys2Proof.Tests

open Sys2Proof.Machine

/-! ### WellFormed: what it refuses -/

theorem test_t32_r13_read_is_ill_formed : (Instr.mrcTtbcr .t32 13).wellFormed = false := by decide

theorem test_t32_r13_write_is_ill_formed : (Instr.mcrTtbcr .t32 13).wellFormed = false := by decide

theorem test_other_registers_are_well_formed :
    (Instr.mrcTtbcr (.a32 .al) 13).wellFormed = true ∧ (Instr.mcrTtbcr .t32 14).wellFormed = true := by decide

/-! ### Decode: words written out from R83 and R84, and the near misses of section 2.8 -/

theorem test_decode_read_bit_by_bit :
    decodeWord .a32 0b1110_1110_000_1_0010_1100_1111_010_1_0000#32 = .ok (.mrcTtbcr (.a32 .al) 12) := by decide

theorem test_decode_write_bit_by_bit :
    decodeWord .a32 0b0001_1110_000_0_0010_0101_1111_010_1_0000#32 = .ok (.mcrTtbcr (.a32 .ne) 5) := by decide

theorem test_decode_t32_read :
    decode .t32 [0x12#8, 0xEE#8, 0x50#8, 0xCF#8] = .ok (.mrcTtbcr .t32 12) := by decide

theorem test_decode_t32_write :
    decode .t32 [0x02#8, 0xEE#8, 0x50#8, 0x3F#8] = .ok (.mcrTtbcr .t32 3) := by decide

theorem test_decode_near_misses :
    decodeWord .a32 0xEE120F10#32 = .error (.otherSystemRegister { SysReg.ttbcr with opc2 := 0 }) ∧
    decodeWord .a32 0xEE120F51#32 = .error (.otherSystemRegister { SysReg.ttbcr with crm := 1 }) ∧
    decodeWord .a32 0xEE130F50#32 = .error (.otherSystemRegister { SysReg.ttbcr with crn := 3 }) ∧
    decodeWord .a32 0xEE320F50#32 = .error (.otherSystemRegister { SysReg.ttbcr with opc1 := 1 }) ∧
    decodeWord .a32 0xEE120E50#32 = .error (.otherSystemRegister { SysReg.ttbcr with coproc := 0b1110 }) ∧
    decodeWord .a32 0xFE120F50#32 = .error (.unconditionalSpace 0xFE120F50#32) ∧
    decodeWord .a32 0xEE120F40#32 = .error (.notRegisterTransfer 0xEE120F40#32) ∧
    decodeWord .a32 0xEE12FF50#32 = .error .rt15 ∧ decode .a32 [0x50#8, 0x0F#8, 0x12#8] = .error .tooShort := by decide

theorem test_decode_table_words :
    decodeTableWord 32 0x0E120F50 = some (.mrcTtbcr (.a32 .eq) 0) ∧
    decodeTableWord 32 0x0E020F50 = some (.mcrTtbcr (.a32 .eq) 0) := by decide

theorem test_assembly : (Instr.mcrTtbcr (.a32 .ne) 5).assembly = "MCRNE p15, 0, r5, c2, c0, 2" := by decide

/-! ### Conditions: the two that section 2.8 names, on either value of Z -/

theorem test_conditions :
    condHolds .eq ⟨false, true, false, false⟩ = true ∧ condHolds .ne ⟨false, true, false, false⟩ = false ∧
    condHolds .eq ⟨false, false, false, false⟩ = false ∧ condHolds .al ⟨false, false, false, false⟩ = true := by decide

/-! ### The register: sections 2.1, 2.2, 2.5 and 2.7 -/

theorem test_short_fields :
    ShortFields.ofWord 0x00000015#32 = ⟨0, 0, 1, 0, 5⟩ ∧ ShortFields.ofWord 0x7FFFFFFF#32 = ⟨0x1FFFFFF, 1, 1, 1, 7⟩ := by
  decide

theorem test_long_fields :
    LongFields.ofWord 0xB5003500#32 = ⟨0, 3, 1, 1, 0, 0, 0, 0, 0, 3, 1, 1, 0, 0, 0, 0⟩ ∧
    LongFields.ofWord 0x80C200C1#32 = ⟨0, 0, 0, 0, 1, 1, 0, 2, 0, 0, 0, 0, 1, 1, 0, 1⟩ := by decide

/-- Configurations for WB1 to WB7: every RES0 position `hardwired_zero`, and every one `storage`. -/
def hardwired : Cfg := { resetCfg with res0Short := 0xFFFFFFFF, res0Long := 0xFFFFFFFF }

theorem test_read_back_under_hardwired_zero :
    readValue hardwired 0x00000032#32 = 0x00000032#32 ∧ readValue hardwired 0x80C200C1#32 = 0x80C200C1#32 ∧
    readValue { hardwired with featAA32HPD := false } 0x80C200C1#32 = 0x80C20081#32 ∧
    readValue hardwired 0x7FFFFFFF#32 = 0x00000037#32 ∧ readValue hardwired 0xFFFFFFFF#32 = 0xFFC73FC7#32 ∧
    readValue hardwired 0x00C200C1#32 = 0x00000001#32 := by decide

theorem test_read_back_under_storage :
    readValue { resetCfg with featAA32HPD := false } 0x80C200C1#32 = 0x80C200C1#32 ∧
    readValue resetCfg 0x7FFFFFFF#32 = 0x7FFFFFFF#32 ∧ readValue resetCfg 0xFFFFFFFF#32 = 0xFFFFFFFF#32 := by decide

theorem test_ttbr0_base :
    ttbr0Base 2 0x80004ABC#64 = 0x80004000#32 ∧ ttbr0Base 0 0xFFFFFFFF#64 = 0xFFFFC000#32 ∧
    ttbr0Base 7 0xFFFFFFFF#64 = 0xFFFFFF80#32 := by decide

theorem test_walk_disable_bits :
    walkDisabled 0x00000010#32 .ttbr0 = true ∧ walkDisabled 0x00000010#32 .ttbr1 = false ∧
    walkDisabled 0x00000020#32 .ttbr1 = true ∧ walkDisabled 0x80000080#32 .ttbr0 = true ∧
    walkDisabled 0x80800000#32 .ttbr1 = true ∧ walkDisabled 0x80000030#32 .ttbr0 = false ∧
    walkDisabled 0x80000030#32 .ttbr1 = false ∧ walkDisabled 0x00800080#32 .ttbr0 = false ∧
    walkDisabled 0x00800080#32 .ttbr1 = false := by decide

theorem test_ttbcr2_enable :
    ttbcr2Enabled resetCfg 0x80000040#32 = true ∧ ttbcr2Enabled resetCfg 0x80000000#32 = false ∧
    ttbcr2Enabled resetCfg 0x00000040#32 = false ∧
    ttbcr2Enabled { resetCfg with featAA32HPD := false } 0x80000040#32 = false := by decide

theorem test_candidate_tables :
    candidateTtbr0TableSize 2 = 4096 ∧ candidateTtbr0TableSize 0 = 16384 ∧ candidateTtbr0TableSize 7 = 128 ∧
    candidateTtbr1Base 0x80007ABC#64 = 0x80004000#32 := by decide

theorem test_candidate_selection :
    candidateSelectShort 0 0xFFFFFFFF#32 = .ttbr0 ∧ candidateSelectShort 1 0x7FFFFFFF#32 = .ttbr0 ∧
    candidateSelectShort 1 0x80000000#32 = .ttbr1 ∧ candidateSelectShort 7 0x01FFFFFF#32 = .ttbr0 ∧
    candidateSelectShort 7 0x02000000#32 = .ttbr1 ∧ candidateSelectLong 0 0 0xFFFFFFFF#32 = .useTtbr0 ∧
    candidateSelectLong 1 0 0x80000000#32 = .useTtbr1 ∧ candidateSelectLong 0 2 0xBFFFFFFF#32 = .useTtbr0 ∧
    candidateSelectLong 0 2 0xC0000000#32 = .useTtbr1 ∧ candidateSelectLong 2 2 0x40000000#32 = .noRegion ∧
    candidateSelectLong 2 2 0xBFFFFFFF#32 = .noRegion ∧ candidateSelectLong 7 7 0xFE000000#32 = .useTtbr1 := by decide

/-! ### One step of each instruction: rows of sections 2.3 and 2.4 -/

/-- An implementation without EL3, with EL2 in either execution state. -/
def noEl3 : Cfg := { resetCfg with haveEL3 := false, featAA32EL3 := false, featAA64EL2 := true }

/-- EL1 with EL2 not enabled. -/
def el1 : Env := { resetEnv with el := .el1 }

/-- EL1 under an AArch32 EL2. -/
def el1A32 : Env := { el1 with el2Enabled := true }

/-- EL1 under an AArch64 EL2. -/
def el1A64 : Env := { el1 with el2Enabled := true, el2UsesAArch32 := false }

/-- A state whose three storages and R1 hold four different values. -/
def st (cfg : Cfg) (env : Env) : State :=
  { State.reset with
    cfg := cfg, env := env, ttbcr := ⟨0x11, []⟩, ttbcrS := ⟨0x22, []⟩, ttbcrNS := ⟨0x33, []⟩,
    regs := State.reset.regs.set 1 0xB5003500 }

/-- The fault an answer stops with. -/
def faultOf (a : Answer) : Option Fault :=
  match a with
  | .next _ => none
  | .fault r => some r
  | .refused _ => none

/-- What R2 and the program counter hold after MRC p15, 0, r2, c2, c0, 2. -/
def readR2 (s : State) : Option (Word × Word) :=
  match exec (.mrcTtbcr (.a32 .al) 2) s with
  | .next t => some (t.readReg 2, t.pc)
  | .fault _ => none
  | .refused _ => none

/-- What the three storages hold after MCR p15, 0, r1, c2, c0, 2. -/
def banksAfterWriteR1 (s : State) : Option (Word × Word × Word) :=
  match exec (.mcrTtbcr (.a32 .al) 1) s with
  | .next t => some (t.ttbcr.value, t.ttbcrS.value, t.ttbcrNS.value)
  | .fault _ => none
  | .refused _ => none

/-- RD4, RD5, RD10, RD13, RD14, RD15, RD17, RD18, RD19. -/
theorem test_mrc_reads :
    readR2 (st noEl3 el1) = some (0x11, 4) ∧ readR2 (st resetCfg el1) = some (0x33, 4) ∧
    readR2 (st noEl3 { el1A32 with hcrTVM := true }) = some (0x11, 4) ∧
    readR2 (st noEl3 { el1A64 with hstrT2 := true, hcrTRVM := true }) = some (0x11, 4) ∧
    readR2 (st resetCfg { el1A32 with hstrEl2T2 := true, hcrEl2TRVM := true }) = some (0x33, 4) ∧
    readR2 (st noEl3 { el1A32 with el := .el2, hstrT2 := true, hcrTRVM := true }) = some (0x11, 4) ∧
    readR2 (st resetCfg resetEnv) = some (0x22, 4) ∧ readR2 (st resetCfg { resetEnv with scrNS := true }) = some (0x33, 4) ∧
    readR2 (st resetCfg { resetEnv with cp15SDisable := true, cp15SDisable2 := true }) = some (0x22, 4) := by decide

/-- RD1, RD2, RD3, RD6, RD7, RD8, RD9. -/
theorem test_mrc_stops :
    faultOf (exec (.mrcTtbcr (.a32 .al) 2) (st { noEl3 with featAA32EL1 := false } el1)) = some .undefined ∧
    faultOf (exec (.mrcTtbcr (.a32 .al) 2) (st { resetCfg with featAA32EL1 := false } resetEnv)) = some .undefined ∧
    faultOf (exec (.mrcTtbcr (.a32 .al) 2) (st noEl3 { el1A32 with el := .el0, hstrT2 := true, hcrTRVM := true })) =
      some .undefined ∧
    faultOf (exec (.mrcTtbcr (.a32 .al) 2) (st noEl3 { el1A64 with hstrEl2T2 := true })) =
      some (.aarch64SystemAccessTrapToEL2 3) ∧
    faultOf (exec (.mrcTtbcr (.a32 .al) 2) (st noEl3 { el1A32 with hstrT2 := true })) = some (.hypTrap 3) ∧
    faultOf (exec (.mrcTtbcr (.a32 .al) 2) (st noEl3 { el1A64 with hcrEl2TRVM := true })) =
      some (.aarch64SystemAccessTrapToEL2 3) ∧
    faultOf (exec (.mrcTtbcr (.a32 .al) 2) (st resetCfg { el1A32 with hcrTRVM := true })) = some (.hypTrap 3) := by decide

/-- WR3, WR4, WR9, WR12, WR14, WR18, WR19. -/
theorem test_mcr_writes :
    banksAfterWriteR1 (st noEl3 el1) = some (0xB5003500, 0x22, 0x33) ∧
    banksAfterWriteR1 (st resetCfg { el1 with cp15SDisable := true, cp15SDisable2 := true }) = some (0x11, 0x22, 0xB5003500) ∧
    banksAfterWriteR1 (st noEl3 { el1A32 with hcrTRVM := true }) = some (0xB5003500, 0x22, 0x33) ∧
    banksAfterWriteR1 (st resetCfg { el1A64 with el := .el2, hstrEl2T2 := true, hcrEl2TVM := true }) =
      some (0x11, 0x22, 0xB5003500) ∧
    banksAfterWriteR1 (st resetCfg resetEnv) = some (0x11, 0xB5003500, 0x33) ∧
    banksAfterWriteR1 (st resetCfg { resetEnv with scrNS := true }) = some (0x11, 0x22, 0xB5003500) ∧
    banksAfterWriteR1 (st resetCfg { resetEnv with scrNS := true, cp15SDisable := true, cp15SDisable2 := true }) =
      some (0x11, 0x22, 0xB5003500) := by decide

/-- WR1, WR2, WR5, WR6, WR7, WR8, WR15, WR16. -/
theorem test_mcr_stops :
    faultOf (exec (.mcrTtbcr (.a32 .al) 1) (st { noEl3 with featAA32EL1 := false } { el1A32 with el := .el2 })) =
      some .undefined ∧
    faultOf (exec (.mcrTtbcr (.a32 .al) 1) (st noEl3 { el1 with el := .el0 })) = some .undefined ∧
    faultOf (exec (.mcrTtbcr (.a32 .al) 1) (st noEl3 { el1A64 with hstrEl2T2 := true })) =
      some (.aarch64SystemAccessTrapToEL2 3) ∧
    faultOf (exec (.mcrTtbcr (.a32 .al) 1) (st noEl3 { el1A32 with hstrT2 := true })) = some (.hypTrap 3) ∧
    faultOf (exec (.mcrTtbcr (.a32 .al) 1) (st noEl3 { el1A64 with hcrEl2TVM := true })) =
      some (.aarch64SystemAccessTrapToEL2 3) ∧
    faultOf (exec (.mcrTtbcr (.a32 .al) 1) (st resetCfg { el1A32 with hcrTVM := true })) = some (.hypTrap 3) ∧
    faultOf (exec (.mcrTtbcr (.a32 .al) 1) (st resetCfg { resetEnv with cp15SDisable := true })) = some .undefined ∧
    faultOf (exec (.mcrTtbcr (.a32 .al) 1) (st resetCfg { resetEnv with cp15SDisable2 := true })) = some .undefined := by
  decide

/-! ### A placed word is fetched and run -/

/-- What the program counter and R0 hold after a step. -/
def pcAndR0 (a : Answer) : Option (Word × Word) :=
  match a with
  | .next t => some (t.pc, t.readReg 0)
  | .fault _ => none
  | .refused _ => none

/-- 0xEE120F50 from P1 (section 3): R0 takes the reset value. 0x0E120F50 is its EQ form, whose condition fails with Z clear. -/
theorem test_placed_words_run :
    pcAndR0 (step (State.reset.withFetchWord 32 0xEE120F50)) = some (4, 0) ∧
    pcAndR0 (step ((st resetCfg resetEnv).withFetchWord 32 0xEE120F50)) = some (4, 0x22) ∧
    pcAndR0 (step ((st resetCfg resetEnv).withFetchWord 32 0x0E120F50)) = some (4, 0) ∧
    pcAndR0 (step (State.reset.withFetchWord 32 0x0E020F50)) = some (4, 0) := by decide

theorem test_empty_memory_faults : faultOf (step State.reset) = some (.fetchUnwritten 0) := by decide

/-- The reset state's storages are what a Warm reset into EL3 using AArch32 makes of an all-zero draw (R141, R142). -/
theorem test_reset_state_is_a_reset : resetArch true State.reset.toArch = State.reset.toArch := rfl

/-! ### Witnesses: states and operands that meet the hypotheses of each statement together -/

/-- The read and the write, always executed. -/
def rd : Instr := .mrcTtbcr (.a32 .al) 2
/-- The write of R1, always executed. -/
def wr : Instr := .mcrTtbcr (.a32 .al) 1

theorem witness_access (s : State) : IsAccess rd s ∧ IsAccess wr s := ⟨⟨rfl, rfl⟩, ⟨rfl, rfl⟩⟩

theorem witness_MrcFollowsTheReadPseudocode : IsAccess (.mrcTtbcr (.a32 .al) 2) (st noEl3 el1) := ⟨rfl, rfl⟩

theorem witness_McrFollowsTheWritePseudocode : IsAccess (.mcrTtbcr .t32 14) (st noEl3 el1) := ⟨rfl, rfl⟩

theorem not_trapped (d : Direction) (s : State) (h : s.env.el2Enabled = false) :
    ¬ TrappedToAArch64 d s ∧ ¬ TrappedToAArch32 d s := by
  constructor <;> rintro ⟨-, -, h2, -⟩ <;> rw [h] at h2 <;> cases h2

/-- Every row of the table of R103 but EL0's, untrapped and not locked out. -/
theorem witness_AccessesCompleteOnTheTabulatedInstance :
    Reaches (st resetCfg el1) .ttbcrNS ∧ Reaches (st noEl3 el1) .ttbcr ∧
    Reaches (st resetCfg { el1 with el := .el2 }) .ttbcrNS ∧ Reaches (st noEl3 { el1 with el := .el2 }) .ttbcr ∧
    Reaches (st resetCfg resetEnv) .ttbcrS ∧ Reaches (st resetCfg { resetEnv with scrNS := true }) .ttbcrNS ∧
    ¬ LockedOut .write (st resetCfg resetEnv) ∧ (st resetCfg resetEnv).cfg.featAA32EL1 = true := by
  have h3 : ∀ e : Env, e.el3UsesAArch32 = true → El3IsAArch32 (st resetCfg e) := fun e h => ⟨rfl, rfl, h⟩
  have hn : ∀ e : Env, ¬ El3IsAArch32 (st noEl3 e) := by rintro e ⟨h, -⟩; cases h
  refine ⟨.inl ⟨rfl, h3 _ rfl, rfl⟩, .inr (.inl ⟨rfl, hn _, rfl⟩), .inr (.inr (.inl ⟨rfl, h3 _ rfl, rfl⟩)),
    .inr (.inr (.inr (.inl ⟨rfl, hn _, rfl⟩))), .inr (.inr (.inr (.inr (.inl ⟨rfl, rfl, rfl⟩)))),
    .inr (.inr (.inr (.inr (.inr ⟨rfl, rfl, rfl⟩)))), ?_, rfl⟩
  rintro ⟨-, -, -, h | h⟩ <;> cases h

theorem witness_AccessesChangeNothingElse :
    (∃ u, exec rd (st noEl3 el1) = .next u) ∧ ∃ u, exec wr (st noEl3 el1) = .next u := ⟨⟨_, rfl⟩, ⟨_, rfl⟩⟩

/-- A state that differs from `st noEl3 el1` in memory, flags, R0, a companion register and a storage not reached. -/
def elsewhere : State :=
  { st noEl3 el1 with
    mem := [(0, 7)], flags := ⟨true, true, true, true⟩, ttbcrS := ⟨9, [8]⟩, ttbr0 := 6,
    regs := (st noEl3 el1).regs.set 0 5 }

/-- Two states that agree on what the write reads, and a trapped access. -/
theorem witness_AccessesReadNothingElse :
    (IsAccess wr (st noEl3 el1) ∧ IsAccess wr elsewhere ∧ (st noEl3 el1).cfg = elsewhere.cfg ∧
      (st noEl3 el1).env = elsewhere.env ∧ (st noEl3 el1).readReg wr.rt = elsewhere.readReg wr.rt ∧
      (∀ b, Reaches (st noEl3 el1) b → ((st noEl3 el1).bank b).value = (elsewhere.bank b).value) ∧
      ∃ u, exec wr (st noEl3 el1) = .next u) ∧
    ∃ r, exec wr (st noEl3 { el1A32 with hstrT2 := true }) = .fault r := by
  refine ⟨⟨⟨rfl, rfl⟩, ⟨rfl, rfl⟩, rfl, rfl, rfl, fun b hb => ?_, ⟨_, rfl⟩⟩, ⟨_, rfl⟩⟩
  rw [Reaches.unique _ b .ttbcr hb witness_AccessesCompleteOnTheTabulatedInstance.2.1]
  rfl

theorem witness_AccessesDoNotReadTheMemoryModel :
    (∃ u, exec wr (st resetCfg el1) = .next u) ∧ (∃ r, exec wr (st resetCfg { el1A32 with hcrTVM := true }) = .fault r) ∧
    ∃ r, exec (.mcrTtbcr .t32 13) (st resetCfg el1) = .refused r := ⟨⟨_, rfl⟩, ⟨_, rfl⟩, ⟨_, rfl⟩⟩

theorem witness_AccessesAreUndefinedAtEl0 :
    IsAccess wr (st noEl3 { el1 with el := .el0 }) ∧ (st noEl3 { el1 with el := .el0 }).env.el = .el0 := ⟨⟨rfl, rfl⟩, rfl⟩

theorem witness_AccessesAreUndefinedWithoutFeatAA32EL1 :
    IsAccess rd (st { noEl3 with featAA32EL1 := false } el1) ∧
      (st { noEl3 with featAA32EL1 := false } el1).cfg.featAA32EL1 = false := ⟨⟨rfl, rfl⟩, rfl⟩

/-- The conditions of R121, R122 and R123, each met by some access. -/
theorem witness_UndefinedExactlyWhen :
    UndefinedAccess (direction wr) (st resetCfg { resetEnv with cp15SDisable2 := true }) := .inr (.inr ⟨rfl, rfl, rfl, .inr rfl⟩)

theorem witness_HypTrapExactlyWhen : TrappedToAArch32 (direction rd) (st noEl3 { el1A32 with hcrTRVM := true }) :=
  ⟨rfl, rfl, rfl, rfl, rfl, .inr (.inl ⟨rfl, rfl⟩)⟩

theorem witness_AArch64TrapExactlyWhen : TrappedToAArch64 (direction wr) (st noEl3 { el1A64 with hcrEl2TVM := true }) :=
  ⟨rfl, rfl, rfl, rfl, rfl, .inr (.inr ⟨rfl, rfl⟩)⟩

theorem witness_AnAccessHasOneOutcome : IsAccess wr (st noEl3 el1) ∧ Safe (exec wr (st noEl3 el1)) :=
  ⟨⟨rfl, rfl⟩, ⟨_, rfl⟩⟩

/-- Each clause: the lock-out by either signal, and each of the three accesses it does not touch. -/
theorem witness_SecureWriteLockout :
    (∀ d d2 : Bool, (st resetCfg { resetEnv with cp15SDisable := d, cp15SDisable2 := d2 }).env.el = .el3 ∧
      (st resetCfg { resetEnv with cp15SDisable := d, cp15SDisable2 := d2 }).env.scrNS = false) ∧
    (direction rd = .read ∧ ∃ u, exec rd (st resetCfg resetEnv) = .next u) ∧
    ((st noEl3 el1).env.el ≠ .el3 ∧ ∃ u, exec wr (st noEl3 el1) = .next u) ∧
    (∃ u, exec wr (st resetCfg { resetEnv with scrNS := true }) = .next u) ∧
    (∃ r, exec wr (st noEl3 { el1A32 with hstrT2 := true }) = .fault r) :=
  ⟨fun _ _ => ⟨rfl, rfl⟩, ⟨rfl, ⟨_, rfl⟩⟩, ⟨by decide, ⟨_, rfl⟩⟩, ⟨_, rfl⟩, ⟨_, rfl⟩⟩

/-- A write and the read after it, and a written value in each format with a RES0 position set and hardwired. -/
theorem witness_ReadReturnsTheWrittenBits :
    (∃ u w, exec wr (st noEl3 el1) = .next u ∧ IsAccess rd u ∧ exec rd u = .next w) ∧
    (IsRes0 hardwired 0x7FFFFFFF 30 ∧ IsHardwired hardwired 0x7FFFFFFF 30) ∧
    (IsRes0 hardwired 0xFFFFFFFF 3 ∧ IsHardwired hardwired 0xFFFFFFFF 3) ∧
    IsRes0 { hardwired with featAA32HPD := false } 0xFFFFFFFF 6 :=
  ⟨⟨_, _, rfl, ⟨rfl, rfl⟩, rfl⟩, ⟨.inl ⟨by decide, .inl ⟨by decide, by decide⟩⟩, .inl ⟨by decide, by decide⟩⟩,
    ⟨.inr ⟨by decide, .inr (.inr (.inl ⟨by decide, by decide⟩))⟩, .inr ⟨by decide, by decide⟩⟩,
    .inr ⟨by decide, .inr (.inr (.inr ⟨rfl, rfl⟩))⟩⟩

theorem witness_FailedConditionOnlyAdvances :
    (Instr.mrcTtbcr (.a32 .eq) 0).wellFormed = true ∧ conditionPassed (.a32 .eq) State.reset = false := by decide

theorem witness_TheInstanceReachedExists : State.reset.Consistent ∧ Reaches State.reset .ttbcrS :=
  ⟨⟨fun _ => rfl, (fun h => by cases h), fun _ => ⟨rfl, rfl⟩, fun _ => rfl, (fun _ h => by cases h)⟩,
    .inr (.inr (.inr (.inr (.inl ⟨rfl, rfl, rfl⟩))))⟩

theorem witness_DecodeOfEncodeIsTheInstruction : (Instr.mcrTtbcr .t32 14).wellFormed = true := by decide

theorem witness_EncodeOfDecodeIsTheBytes :
    decode .a32 [0x50#8, 0xEF#8, 0x02#8, 0xEE#8, 0xFF#8] = .ok (.mcrTtbcr (.a32 .al) 14) := by decide

theorem witness_RestrictedRegistersAreRefused : (0b1110#4 : BitVec 4) ≠ 0b1111#4 := by decide

theorem witness_OtherSystemRegistersAreRefused :
    (0b1110#4 : BitVec 4) ≠ 0b1111#4 ∧ ({ SysReg.ttbcr with crm := 1 } : SysReg) ≠ SysReg.ttbcr := by decide

/-- MCR p15, 0, r1 and MRC p15, 0, r4 of P4 (section 3) from address 0 on, at EL3 with SCR.NS 0, and SCR.NS set between. -/
def p4 : State :=
  { st resetCfg resetEnv with
    mem := Memory.writeBytes [] 0 (bytesOfWord .a32 0xEE021F50 ++ bytesOfWord .a32 0xEE124F50)
    inputs := [.execute, .environment { resetEnv with scrNS := true } 0, .execute] }

/-- An A32 read of R4 at 0 in a big-endian memory, whose A32 instructions may lie anywhere. -/
def bigEndianA32 : State :=
  { st resetCfg { resetEnv with memoryModel := { resetMemoryModel with bigEndian := true, a32Unit := 1 } } with
    mem := Memory.writeBytes [] 1 [0xEE, 0x12, 0x4F, 0x50], pc := 1 }

/-- A platform whose map leaves the first 4096 addresses out. -/
def noMemory : State :=
  { State.reset with env := { resetEnv with memoryModel := { resetMemoryModel with absent := [⟨0, 4096⟩] } } }

/-- R71, R72: the word 0xEE124F50 with its most significant byte at the lowest address, off a multiple of 4. -/
theorem test_big_endian_fetch :
    (fetch bigEndianA32).toOption = some [0x50, 0x4F, 0x12, 0xEE] ∧
    decode .a32 [0x50, 0x4F, 0x12, 0xEE] = .ok (.mrcTtbcr (.a32 .al) 4) := by decide

/-- Both byte orders, an address the map leaves out, and one off a multiple of 4. -/
theorem witness_FetchFollowsTheMemoryModel :
    (bigEndianA32.pc.toNat % bigEndianA32.env.memoryModel.unit .a32 = 0 ∧
      (∀ k < 4, bigEndianA32.env.memoryModel.isAbsent (bigEndianA32.pc + BitVec.ofNat 32 k) = false) ∧
      bigEndianA32.readByte 1 = some 0xEE ∧ bigEndianA32.readByte 4 = some 0x50) ∧
    (p4.pc.toNat % p4.env.memoryModel.unit .a32 = 0 ∧ p4.readByte 0 = some 0x50 ∧ p4.readByte 3 = some 0xEE) ∧
    noMemory.env.memoryModel.isAbsent noMemory.pc = true ∧
    ({ State.reset with pc := 2 } : State).pc.toNat % resetMemoryModel.unit .a32 ≠ 0 := by decide

/-- A T32 read of R14 at physical 0x100 and 0x200, half and half, fetched from 0x1000 through TLB hits. -/
def translatedT32 : State :=
  { st resetCfg resetEnv with
    isa := .t32, pc := 0x1000, tlb := [0x1000, 0x1002]
    mem := Memory.writeBytes (Memory.writeBytes [] 0x100 [0x12, 0xEE]) 0x200 [0x50, 0xEF]
    inputs := [.executeTranslated .secure ⟨0, 0x100⟩ ⟨0, 0x200⟩] }

/-- What R14 and the last translation are after a step. -/
def r14AndTranslation (a : Answer) : Option (Word × Option Resolution) :=
  match a with
  | .next t => some (t.readReg 14, t.lastTranslation)
  | .fault _ => none
  | .refused _ => none

/-- R78: the instruction comes from where the two requests lead. -/
theorem test_translated_fetch :
    r14AndTranslation (step translatedT32) = some (0x22, some (.cached 0x1002)) := by decide

/-- The three schedules: nothing, `execute` at the head, and `executeTranslated` at the head. -/
theorem witness_StepRunsTheDecodedInstruction :
    (∃ bytes i, fetch (State.reset.withFetchWord 32 0xEE120F50) = .ok bytes ∧ decode .a32 bytes = .ok i) ∧
    (State.reset.withFetchWord 32 0xEE120F50).inputs = [] ∧
    (∃ bytes, fetch { State.reset.withFetchWord 32 0xEE120F50 with inputs := [.execute] } = .ok bytes) ∧
    ∃ u bytes, fetchTranslated .secure ⟨0, 0x100⟩ ⟨0, 0x200⟩ { translatedT32 with inputs := [] } = .next (u, bytes) ∧
      decode .t32 bytes = .ok (.mrcTtbcr .t32 14) :=
  ⟨⟨_, .mrcTtbcr (.a32 .al) 0, rfl, by decide⟩, rfl, ⟨_, rfl⟩, ⟨_, _, rfl, by decide⟩⟩

/-- An A32 fetch scheduled as translated, with a miss at the program counter. -/
def translatedA32 (v : Word) (tlb : Tlb) : State :=
  { p4 with
    ttbcrS := ⟨v, []⟩, tlb := tlb, pc := 0x1000
    inputs := [.executeTranslated .secure ⟨0, 4⟩ ⟨0, 0⟩] }

/-- A32 with `executeTranslated` at the head: a miss whose walk is disabled for whichever TTBR is selected, a hit, and a miss
whose walk is enabled; and T32, whose two requests hit. -/
theorem witness_FetchesAreTranslatedInTheRegime :
    ((translatedA32 0x30 []).inputs = [.executeTranslated .secure ⟨0, 4⟩ ⟨0, 0⟩] ∧
      valueInUse (translatedA32 0x30 []) .secure 0 = 0x30 ∧ NoImpdef 0x30 ∧
      ∃ x, 0x1000#32 ∉ (translatedA32 0x30 []).tlb ∧ selectTtbr 0x30 0x1000 = regionOf x ∧ walkDisabled 0x30 x = true) ∧
    (0x1000#32 ∈ (translatedA32 0x30 [0x1000]).tlb ∧
      ∃ x, selectTtbr 0 (translatedA32 0 []).pc = regionOf x ∧ walkDisabled 0 x = false ∧
        (eae 0 = true → shField 0 x ≠ 0b01#2)) ∧
    (∃ bytes, readUnit resetMemoryModel (translatedA32 0 []).mem 4 4 = .ok bytes ∧
      decode .a32 bytes = .ok (.mrcTtbcr (.a32 .al) 4)) ∧
    (∃ u w, translate .secure 0x1000 0 translatedT32 = .next u ∧ translate .secure 0x1002 0 u = .next w) ∧
    readUnit resetMemoryModel translatedT32.mem 0x100 2 = .ok [0x12, 0xEE] := by
  obtain ⟨x, hx⟩ := selectTtbr_short 0x30 0x1000 (by decide)
  obtain ⟨y, hy⟩ := selectTtbr_short 0 0x1000 (by decide)
  exact ⟨⟨rfl, rfl, .inl (by decide), x, by decide, hx, by cases x <;> decide⟩,
    ⟨by decide, y, hy, by cases y <;> decide, fun h => absurd h (by decide)⟩, ⟨_, rfl, by decide⟩, ⟨_, _, rfl, rfl⟩, rfl⟩

theorem witness_EveryStepKeepsTheInvariant :
    ({ State.reset with inputs := [.tlbFill 5, .reset .warm true State.reset.toArch] } : State).Inv ∧
      ∃ t, step { State.reset with inputs := [.tlbFill 5, .reset .warm true State.reset.toArch] } = .next t :=
  ⟨by decide, ⟨_, rfl⟩⟩

/-- A value that changes in a step, for each of the four writers. -/
theorem witness_OnlyTheNamedWritersChangeTtbcr :
    (∃ t, step ((st noEl3 el1).withFetchWord 32 0xEE021F50) = .next t ∧ t.ttbcr.value ≠ 0x11) ∧
    (∃ t, step { st noEl3 el1 with inputs := [.writeTcrEl1 5] } = .next t ∧ t.ttbcr.value ≠ 0x11) ∧
    (∃ t, step { st noEl3 el1 with inputs := [.reset .warm true (st noEl3 el1).toArch] } = .next t ∧ t.ttbcr.value ≠ 0x11) ∧
    (∃ t, step { st resetCfg el1 with inputs := [.environment { el1 with el3UsesAArch32 := false } 7] } = .next t ∧
      t.ttbcr.value ≠ 0x11) :=
  ⟨⟨_, rfl, by decide⟩, ⟨_, rfl, by decide⟩, ⟨_, rfl, by decide⟩, ⟨_, rfl, by decide⟩⟩

theorem witness_CfgIsFixedAndEnvIsTheEnvironments :
    ∃ t, step { st resetCfg el1 with inputs := [.environment { el1 with scrNS := true } 0] } = .next t ∧ t.env ≠ el1 :=
  ⟨_, rfl, by decide⟩

theorem witness_BelowEl3TtbcrSIsOutOfReach :
    (st resetCfg el1).env.el ≠ .el3 ∧ (∃ u, exec wr (st resetCfg el1) = .next u) ∧
    (∃ r, exec wr (st resetCfg { el1A32 with hcrTVM := true }) = .fault r) ∧
    ∃ r, exec (.mcrTtbcr .t32 13) (st resetCfg el1) = .refused r := ⟨by decide, ⟨_, rfl⟩, ⟨_, rfl⟩, ⟨_, rfl⟩⟩

/-- Two accesses in three steps, with an event between, as in P4. -/
theorem witness_CompletedRunsEndNormally :
    (∃ t, AccessRun 0 [listed (.mcrTtbcr (.a32 .al) 1), listed (.mrcTtbcr (.a32 .al) 4)] p4 t ∧
      t.ttbcrS.value = 0xB5003500 ∧ t.readReg 4 = 0x33 ∧ t.pc = 8) ∧
    (State.reset.withFetchWord 32 0xEE120F50).inputs = [] ∧
    ∃ t, run 1 (State.reset.withFetchWord 32 0xEE120F50) = .next t :=
  ⟨⟨_, .access _ _ _ _ _ _ rfl ⟨_, _, _, .inr (.inl ⟨_, rfl, rfl⟩), by decide, rfl, rfl, rfl⟩ rfl
      (.event _ _ _ _ _ _ rfl rfl
        (.access _ _ _ _ _ _ rfl ⟨_, _, _, .inr (.inl ⟨_, rfl, rfl⟩), by decide, rfl, rfl, rfl⟩ rfl (.ended _ _))),
      by decide, by decide, by decide⟩, rfl, ⟨_, rfl⟩⟩

/-- The variant of P4: with CP15SDISABLE HIGH the run ends abnormally at its first access (R153). -/
theorem test_p4_variant_ends_abnormally :
    EndsAbnormally 0 [listed (.mcrTtbcr (.a32 .al) 1), listed (.mrcTtbcr (.a32 .al) 4)]
      { p4 with env := { resetEnv with cp15SDisable := true } } :=
  .accessStops _ _ _ _ rfl ⟨_, _, .inr (.inl ⟨_, rfl, rfl⟩), rfl, by decide⟩ (.inl rfl)

/-- The read with Rt 15, 0xEE12FF50 of section 2.8, at the program counter, and how a program lists it. -/
def a32R15 : State := State.reset.withFetchWord 32 0xEE12FF50
def readR15 : ListedAccess := { form := .a32 .al, dir := .read, rt := 15 }

/-- The refused access with Rt 15 ends a run abnormally (R153, R86, D8). -/
theorem test_rt15_ends_abnormally : EndsAbnormally 0 [readR15] a32R15 :=
  .accessStops _ _ _ _ rfl ⟨_, _, .inl ⟨rfl, rfl⟩, rfl, by decide⟩ (.inr (.inr (.inr ⟨_, rfl⟩)))

/-- T32 with the refused R13 at the program counter (R86). -/
def t32R13 : State := { State.reset with isa := .t32, mem := [(0, 0x12), (1, 0xEE), (2, 0x50), (3, 0xDF)] }

/-- Each clause: an access whose turn it is, an event that completes and one that stops, the two registers that are refused,
and a fetch that is misaligned, finds nothing or is outside the map. -/
theorem witness_RunsEndAbnormallyAtTheFirstExceptionalOutcome :
    (p4.pc = 0 ∧ RunsAccess p4 (listed (.mcrTtbcr (.a32 .al) 1))) ∧
    (({ State.reset with inputs := [.translate .secure 0x1000 0] } : State).runsInstruction = false) ∧
    (∃ v, ¬ Safe (step { State.reset with ttbcrS := ⟨0x30, []⟩, inputs := [.translate .secure v 0] })) ∧
    (a32R15.pc = 0 ∧ FetchesAccess a32R15 readR15 ∧ readR15.isRefused) ∧
    (t32R13.pc = 0 ∧ FetchesAccess t32R13 (listed (.mrcTtbcr .t32 13)) ∧ (listed (.mrcTtbcr .t32 13)).isRefused) ∧
    faultOf (step State.reset) = some (.fetchUnwritten 0) ∧
    faultOf (step { State.reset with pc := 2 }) = some (.pcMisaligned 2) ∧
    faultOf (step noMemory) = some (.fetchAbsent 0) := by
  refine ⟨⟨rfl, _, _, _, .inr (.inl ⟨_, rfl, rfl⟩), by decide, rfl, rfl, rfl⟩, rfl, ⟨0x1000, ?_⟩,
    ⟨rfl, ⟨_, _, .inl ⟨rfl, rfl⟩, rfl, by decide⟩, .inl rfl⟩,
    ⟨rfl, ⟨_, _, .inl ⟨rfl, rfl⟩, rfl, by decide⟩, .inr ⟨rfl, rfl⟩⟩, by decide, by decide, by decide⟩
  rintro ⟨t, h⟩
  obtain ⟨x, hx⟩ := selectTtbr_short 0x30 0x1000 (by decide)
  have hr : resolvePlain { State.reset with ttbcrS := ⟨0x30, []⟩ } 0x30 0x1000 = .translationFault 0x1000 x := by
    rw [resolvePlain_miss _ _ _ x (by decide) hx, missThrough, if_pos (by cases x <;> decide)]
  have : step { State.reset with ttbcrS := ⟨0x30, []⟩, inputs := [.translate .secure 0x1000 0] } =
      settle { State.reset with ttbcrS := ⟨0x30, []⟩ }
        (resolvePlain { State.reset with ttbcrS := ⟨0x30, []⟩ } 0x30 0x1000) := rfl
  rw [this, hr] at h
  cases h

/-- A fetch that finds no instruction does not end a run of accesses (R153): no access has run. -/
theorem test_an_unwritten_fetch_is_no_abnormal_end (p : ListedAccess) : ¬ EndsAbnormally 0 [p] State.reset := by
  have h0 : step State.reset = .fault (.fetchUnwritten 0) := rfl
  intro h
  cases h with
  | accessStops _ _ _ _ _ _ h => rw [h0] at h; rcases h with h | h | h | ⟨_, h⟩ <;> cases h
  | translationStops _ _ _ _ _ h => rw [h0] at h; rcases h with ⟨_, _, h⟩ | ⟨_, h⟩ <;> cases h
  | event _ _ _ _ _ _ h _ => rw [h0] at h; cases h
  | access _ _ _ _ _ _ _ h _ => rw [h0] at h; cases h

/-- Both clauses: a draw at EL3 and one at another Exception level. -/
theorem witness_ResetIntoAArch32 :
    State.reset.toArch.env.el = .el3 ∧ ({ State.reset.toArch with env := el1 } : Arch).env.el ≠ .el3 := ⟨rfl, by decide⟩

/-- The largest and the smallest value with every stated bit 0. -/
theorem witness_ResetValueReadsAsTheResetFields :
    (0x0038C048#32 : Word) &&& 0xFFC73FB7#32 = 0 ∧ (0#32 : Word) &&& 0xFFC73FB7#32 = 0 := by decide

theorem witness_ShortFormatFieldsPartitionTheRegister : (0x7FFFFFFF#32 : Word).getLsbD 31 = false := by decide

theorem witness_LongFormatFieldsPartitionTheRegister : (0x80000000#32 : Word).getLsbD 31 = true := by decide

/-- Two values of each format that differ in every RES0 position of it, and in no other. -/
theorem witness_Res0BitsHaveNoEffectOnTranslation :
    (eae 0x00000000#32 = eae 0x7FFFFFC8#32 ∧
      ∀ i, i < 32 → ¬ IsRes0 resetCfg 0x00000000#32 i → (0x00000000#32 : Word).getLsbD i = (0x7FFFFFC8#32 : Word).getLsbD i) ∧
    (eae 0x80000000#32 = eae 0x8038C038#32 ∧
      ∀ i, i < 32 → ¬ IsRes0 resetCfg 0x80000000#32 i → (0x80000000#32 : Word).getLsbD i = (0x8038C038#32 : Word).getLsbD i) := by
  refine ⟨⟨by decide, fun i hi h => ?_⟩, ⟨by decide, fun i hi h => ?_⟩⟩ <;>
    (rw [← res0Mask_getLsbD _ _ _ hi] at h; revert h; interval_cases i <;> decide)

/-- A state whose TTBCR holds a given value, with one address in the TLB. -/
def translating (v : Word) : State := { st noEl3 el1 with ttbcr := ⟨v, []⟩, tlb := [0x1000] }

theorem valueInUse_translating (v : Word) : valueInUse (translating v) .nonSecure 0 = v := rfl

/-- A hit and a miss, with the disable bits of either format set and clear, and with the reserved Shareability. -/
theorem witness_WalkDisableActsOnATlbMissAlone :
    (0x1000#32 ∈ (translating 0x30).tlb ∧ 0x2000#32 ∉ (translating 0x30).tlb) ∧
    NoImpdef 0x00000030#32 ∧ NoImpdef 0x00000000#32 ∧ NoImpdef 0x80800080#32 ∧ NoImpdef 0x90001000#32 ∧
    (0x90001000#32 : Word).extractLsb' 12 2 = 0b01#2 ∧ (0x90001000#32 : Word).extractLsb' 28 2 = 0b01#2 := by
  refine ⟨by decide, .inl (by decide), .inl (by decide), .inr (by decide), .inr (by decide), by decide, by decide⟩

/-- A miss with both disable bits of the EAE == 0 format clear is a walk through one of the TTBRs. -/
theorem witness_ShortFormatWalks :
    eae 0x00000007#32 = false ∧ ∃ t w, step { translating 7 with inputs := [.translate .nonSecure 0x2000 0] } = .next t ∧
      t.lastTranslation = some (.walk w) := by
  refine ⟨by decide, ?_⟩
  obtain ⟨x, hx⟩ := selectTtbr_short 7 0x2000 (by decide)
  have hd : walkDisabled 7 x = false := by cases x <;> decide
  rw [step_translate, valueInUse_translating, resolve_of_noImpdef _ _ _ (.inl (by decide)),
    resolvePlain_miss _ _ _ x (by decide) hx, missThrough, hd]
  exact ⟨_, shortWalk (translating 7) 7 0x2000 x, rfl, rfl⟩

/-- The hypotheses of a walk in the EAE == 1 format, of one value in use. -/
def LongWalkCase (v : Word) : Prop :=
  eae v = true ∧ v.getLsbD 30 = false ∧ 0x2000#32 ∉ (translating v).tlb ∧ valueInUse (translating v) .nonSecure 0 = v

/-- The three listed Shareabilities and the extremes of the cacheability fields with both TTBRs usable; TTBR0 usable with
TTBR1 disabled and its Shareability reserved; and the other way round. -/
theorem witness_LongFormatWalks :
    (LongWalkCase 0x80000000#32 ∧ LongWalkCase 0xBF073F07#32 ∧ LongWalkCase 0xA0002000#32 ∧ LongWalkCase 0xB5003500#32) ∧
    (LongWalkCase 0x90800000#32 ∧ (0x90800000#32 : Word).getLsbD 7 = false ∧ (0x90800000#32 : Word).extractLsb' 12 2 ≠ 0b01#2) ∧
    (LongWalkCase 0x80001080#32 ∧ (0x80001080#32 : Word).getLsbD 23 = false ∧
      (0x80001080#32 : Word).extractLsb' 28 2 ≠ 0b01#2) := by
  refine ⟨⟨?_, ?_, ?_, ?_⟩, ⟨?_, by decide, by decide⟩, ⟨?_, by decide, by decide⟩⟩ <;>
    exact ⟨by decide, by decide, by decide, rfl⟩

theorem witness_TranslationsSeeOldOrNewUntilSynchronized :
    IsAccess wr (st noEl3 el1) ∧ (∃ u, exec wr (st noEl3 el1) = .next u) ∧ Reaches (st noEl3 el1) .ttbcr :=
  ⟨⟨rfl, rfl⟩, ⟨_, rfl⟩, witness_AccessesCompleteOnTheTabulatedInstance.2.1⟩

theorem witness_TcrEl1IsTheMappedStorage : (st noEl3 el1).env.el = .el1 ∧ Reaches (st noEl3 el1) .ttbcr :=
  ⟨rfl, witness_AccessesCompleteOnTheTabulatedInstance.2.1⟩

theorem witness_TranslationsUseTheInForceInstance :
    El3IsAArch32 (st resetCfg el1) ∧ ¬ El3IsAArch32 (st noEl3 el1) := by
  refine ⟨⟨rfl, rfl, rfl⟩, ?_⟩
  rintro ⟨h, -⟩
  cases h

/-- A change that reaches another name, and one that does not. -/
theorem witness_EnvironmentChangesEnvAndTheNameNewlyReached :
    mappedBank resetCfg { el1 with el3UsesAArch32 := false } ≠ mappedBank resetCfg el1 ∧
    ({ el1 with scrNS := true } : Env).el3UsesAArch32 = (st noEl3 el1).env.el3UsesAArch32 := ⟨by decide, rfl⟩

end Sys2Proof.Tests
end

/-! ## Proofs: the accesses and the memory model, and UNDEFINED without FEAT_AA32EL1 -/

namespace Sys2Proof.Machine

/-! ### A replaced memory model -/

/-- The state with another `MemoryModel` in `Env` (R6). -/
def State.withMemoryModel (s : State) (mm : MemoryModel) : State :=
  { s with env := { s.env with memoryModel := mm } }

/-- An answer with its next state changed; a fault and a refusal have none and stay. -/
def Answer.mapNext (g : State → State) (a : Answer) : Answer :=
  match a with
  | .next s => .next (g s)
  | .fault r => .fault r
  | .refused r => .refused r

@[simp] theorem Answer.mapNext_next (g : State → State) (s : State) :
    Answer.mapNext g (.next s) = .next (g s) := rfl

@[simp] theorem Answer.mapNext_fault (g : State → State) (r : Fault) :
    Answer.mapNext g (.fault r) = .fault r := rfl

@[simp] theorem Answer.mapNext_refused (g : State → State) (r : Refusal) :
    Answer.mapNext g (.refused r) = .refused r := rfl

/-- An exceptional outcome leaves no state to change (R127). -/
@[simp] theorem Answer.mapNext_raise (g : State → State) (e : Exceptional) :
    Answer.mapNext g (raise e) = raise e := by
  cases e <;> rfl

section
variable (s : State) (mm : MemoryModel)

@[simp] theorem withMemoryModel_readReg (t : Reg) : (s.withMemoryModel mm).readReg t = s.readReg t := rfl

@[simp] theorem withMemoryModel_readBank (b : Bank) : (s.withMemoryModel mm).readBank b = s.readBank b := by
  cases b <;> rfl

@[simp] theorem withMemoryModel_writeReg (t : Reg) (v : Word) :
    (s.withMemoryModel mm).writeReg t v = (s.writeReg t v).withMemoryModel mm := rfl

@[simp] theorem withMemoryModel_writeBank (b : Bank) (v : Word) :
    (s.withMemoryModel mm).writeBank b v = (s.writeBank b v).withMemoryModel mm := by
  cases b <;> rfl

@[simp] theorem withMemoryModel_advancePc :
    (s.withMemoryModel mm).advancePc = s.advancePc.withMemoryModel mm := rfl

@[simp] theorem withMemoryModel_conditionPassed (f : Form) :
    conditionPassed f (s.withMemoryModel mm) = conditionPassed f s := by
  cases f <;> rfl

/-- The access pseudocode does not read the memory model (R100, R101). -/
@[simp] theorem withMemoryModel_routeAccess (d : Direction) :
    routeAccess d (s.withMemoryModel mm).cfg (s.withMemoryModel mm).env = routeAccess d s.cfg s.env := by
  cases d <;> rfl

/-- Executing an instruction and replacing the memory model commute. -/
theorem exec_withMemoryModel (i : Instr) :
    exec i (s.withMemoryModel mm) = Answer.mapNext (·.withMemoryModel mm) (exec i s) := by
  cases hw : i.wellFormed with
  | false => simp [exec_of_ill_formed, hw]
  | true =>
    cases hc : conditionPassed i.form s with
    | false => simp [exec_of_failed, hw, hc]
    | true =>
      rw [exec_of_access i s ⟨hw, hc⟩, exec_of_access i (s.withMemoryModel mm) ⟨hw, by simpa using hc⟩,
        withMemoryModel_routeAccess]
      cases routeAccess (direction i) s.cfg s.env with
      | raise e => simp
      | access b => cases i <;> simp

end

/-- Settles O6: `exec` commutes with the replacement of the memory model, so each kind of answer carries over. -/
theorem accessesDoNotReadTheMemoryModel : Obligations.AccessesDoNotReadTheMemoryModel := by
  intro i s mm
  have hexec : ∀ a, exec i s = a → exec i (s.withMemoryModel mm) = Answer.mapNext (·.withMemoryModel mm) a :=
    fun a h => h ▸ exec_withMemoryModel s mm i
  exact ⟨fun u h => hexec _ h, fun r h => hexec _ h, fun r h => hexec _ h⟩

/-- Settles O8: a missing FEAT_AA32EL1 is the first of the conditions of R121 under which the pseudocode decides UNDEFINED. -/
theorem accessesAreUndefinedWithoutFeatAA32EL1 : Obligations.AccessesAreUndefinedWithoutFeatAA32EL1 := by
  intro i s hacc hfeat
  have hroute : routeAccess (direction i) s.cfg s.env = .raise .undefined :=
    (routeAccess_undefined_iff (direction i) s).2 (.inl hfeat)
  exact (exec_fault_iff i s hacc .undefined).2 ⟨.undefined, hroute, rfl⟩

end Sys2Proof.Machine

/-! ## Proofs: the fetch under any memory model -/

namespace Sys2Proof.Machine

/-! ### Bytes in the map and placed -/

/-- The bytes of a list stand at consecutive addresses from `a` on, each in the map and placed. -/
def Memory.Holds (mm : MemoryModel) (m : Memory) (a : Word) (bytes : List Byte) : Prop :=
  match bytes with
  | [] => True
  | b :: rest => mm.isAbsent a = false ∧ Memory.read m a.toNat = some b ∧ Memory.Holds mm m (a + 1) rest

/-- Bytes that memory holds are the bytes read. -/
theorem Memory.readBytes_of_holds (mm : MemoryModel) (m : Memory) (bytes : List Byte) :
    ∀ a : Word, Memory.Holds mm m a bytes → Memory.readBytes mm m a bytes.length = .ok bytes := by
  induction bytes with
  | nil => exact fun a _ => rfl
  | cons b rest ih =>
    rintro a ⟨hmap, hbyte, hrest⟩
    rw [List.length_cons, Memory.readBytes_succ mm m a rest.length b hmap hbyte, ih (a + 1) hrest]

/-- A unit that memory holds is read in the byte order of the memory model (R71). -/
theorem readUnit_of_holds (mm : MemoryModel) (m : Memory) (a : Word) (bytes : List Byte)
    (h : Memory.Holds mm m a bytes) : readUnit mm m a bytes.length = .ok (mm.order bytes) := by
  rw [readUnit, Memory.readBytes_of_holds mm m bytes a h]

/-- A unit whose first byte the map leaves out faults there (R74). -/
theorem readUnit_absent (mm : MemoryModel) (m : Memory) (a : Word) (n : Nat) (h : mm.isAbsent a = true) :
    readUnit mm m a (n + 1) = .error (.fetchAbsent a) := by
  rw [readUnit, Memory.readBytes, if_pos h]

/-- Four bytes that memory holds, from the premises of a fetch at `s.pc`. -/
theorem holds_four (s : State) (b0 b1 b2 b3 : Byte)
    (hmap : ∀ k < 4, s.env.memoryModel.isAbsent (s.pc + BitVec.ofNat 32 k) = false)
    (h0 : s.readByte s.pc = some b0) (h1 : s.readByte (s.pc + 1) = some b1)
    (h2 : s.readByte (s.pc + 2) = some b2) (h3 : s.readByte (s.pc + 3) = some b3) :
    Memory.Holds s.env.memoryModel s.mem s.pc [b0, b1, b2, b3] := by
  have hpc2 : s.pc + 1 + 1 = s.pc + 2 := by bv_omega
  have hpc3 : s.pc + 2 + 1 = s.pc + 3 := by bv_omega
  simp only [Memory.Holds, hpc2, hpc3]
  exact ⟨by simpa using hmap 0 (by decide), h0, hmap 1 (by decide), h1, hmap 2 (by decide), h2, hmap 3 (by decide), h3,
    trivial⟩

/-- The first two of four bytes stand at `a`, the other two at `a + 2`. -/
theorem Memory.Holds.halfwords {mm : MemoryModel} {m : Memory} {a : Word} {b0 b1 b2 b3 : Byte}
    (h : Memory.Holds mm m a [b0, b1, b2, b3]) :
    Memory.Holds mm m a [b0, b1] ∧ Memory.Holds mm m (a + 2) [b2, b3] := by
  obtain ⟨hmap0, h0, hmap1, h1, hupper⟩ := h
  have ha : a + 1 + 1 = a + 2 := by bv_omega
  exact ⟨⟨hmap0, h0, hmap1, h1, trivial⟩, ha ▸ hupper⟩

/-! ### The fetch, case by case -/

section
variable (s : State)

theorem fetch_misaligned (h : s.pc.toNat % s.env.memoryModel.unit s.isa ≠ 0) :
    fetch s = .error (.pcMisaligned s.pc) := by
  rw [fetch, if_neg h]

variable (halign : s.pc.toNat % s.env.memoryModel.unit s.isa = 0)
include halign

/-- An aligned A32 fetch is one unit of four bytes (R87). -/
theorem fetch_a32 (hisa : s.isa = .a32) : fetch s = readUnit s.env.memoryModel s.mem s.pc 4 := by
  rw [fetch, if_pos halign, hisa]

/-- An aligned T32 fetch whose first halfword stops, stops there (log 15). -/
theorem fetch_t32_error (hisa : s.isa = .t32) (f : Fault)
    (h : readUnit s.env.memoryModel s.mem s.pc 2 = .error f) : fetch s = .error f := by
  rw [fetch, if_pos halign, hisa]
  simp only [h]

/-- An aligned T32 fetch that reads both halfwords has the bytes of the first and then those of the second (R84). -/
theorem fetch_t32_ok (hisa : s.isa = .t32) (lower upper : List Byte)
    (hl : readUnit s.env.memoryModel s.mem s.pc 2 = .ok lower)
    (hu : readUnit s.env.memoryModel s.mem (s.pc + 2) 2 = .ok upper) : fetch s = .ok (lower ++ upper) := by
  rw [fetch, if_pos halign, hisa]
  simp only [hl, hu]

/-- A fetch faults at a first byte that the map leaves out, in either instruction set (R74). -/
theorem fetch_absent (h : s.env.memoryModel.isAbsent s.pc = true) : fetch s = .error (.fetchAbsent s.pc) := by
  cases hisa : s.isa with
  | a32 => rw [fetch_a32 s halign hisa, readUnit_absent _ _ _ 3 h]
  | t32 => exact fetch_t32_error s halign hisa _ (readUnit_absent _ _ _ 1 h)

/-- An A32 fetch of four bytes that memory holds (R71). -/
theorem fetch_a32_of_holds (hisa : s.isa = .a32) (b0 b1 b2 b3 : Byte)
    (h : Memory.Holds s.env.memoryModel s.mem s.pc [b0, b1, b2, b3]) :
    fetch s = .ok (s.env.memoryModel.order [b0, b1, b2, b3]) := by
  rw [fetch_a32 s halign hisa]
  exact readUnit_of_holds _ _ _ _ h

/-- A T32 fetch of four bytes that memory holds: each halfword in the byte order by itself (R71, R84). -/
theorem fetch_t32_of_holds (hisa : s.isa = .t32) (b0 b1 b2 b3 : Byte)
    (h : Memory.Holds s.env.memoryModel s.mem s.pc [b0, b1, b2, b3]) :
    fetch s = .ok (s.env.memoryModel.order [b0, b1] ++ s.env.memoryModel.order [b2, b3]) := by
  obtain ⟨hlower, hupper⟩ := h.halfwords
  exact fetch_t32_ok s halign hisa _ _ (readUnit_of_holds _ _ _ _ hlower) (readUnit_of_holds _ _ _ _ hupper)

end

/-- Settles O25: the four bytes are held by memory, so a fetch reads them in one unit (A32) or two (T32); the two stops are
the first tests that a fetch makes. -/
theorem fetchFollowsTheMemoryModel : Obligations.FetchFollowsTheMemoryModel := by
  intro s
  refine ⟨fun halign => ⟨fun b0 b1 b2 b3 hmap h0 h1 h2 h3 => ?_, fetch_absent s halign⟩, fetch_misaligned s⟩
  have hheld := holds_four s b0 b1 b2 b3 hmap h0 h1 h2 h3
  constructor
  · intro hisa
    rw [fetch_a32_of_holds s halign hisa b0 b1 b2 b3 hheld]
    simp [MemoryModel.order]
  · intro hisa
    rw [fetch_t32_of_holds s halign hisa b0 b1 b2 b3 hheld]
    cases horder : s.env.memoryModel.bigEndian <;> simp [MemoryModel.order, horder]

end Sys2Proof.Machine

/-! ## Proofs: who changes Cfg and Env -/

namespace Sys2Proof.Machine

@[simp] theorem writeTcrEl1_cfg (v : BitVec 64) (s : State) : (writeTcrEl1 v s).cfg = s.cfg := by
  simp [writeTcrEl1, State.writeBank]

@[simp] theorem writeTcrEl1_env (v : BitVec 64) (s : State) : (writeTcrEl1 v s).env = s.env := by
  simp [writeTcrEl1, State.writeBank]

/-- No input changes the configuration (R6). -/
theorem applyInput_cfg (i : Input) (s t : State) (h : applyInput i s = .next t) : t.cfg = s.cfg := by
  cases i
  case translate sec va choice =>
    obtain ⟨r, rfl⟩ := translate_next sec va choice s t h
    rfl
  all_goals
    cases h
    simp [contextSync]

/-- An input leaves `Env` alone, or is an environment input with the new values, or is a reset (R152). -/
theorem applyInput_env (i : Input) (s t : State) (h : applyInput i s = .next t) :
    t.env = s.env ∨ (∃ d, i = .environment t.env d) ∨ ∃ k a d, i = .reset k a d := by
  cases i
  case environment e draw =>
    cases h
    exact .inr (.inl ⟨draw, by simp⟩)
  case reset kind aarch32 draw => exact .inr (.inr ⟨kind, aarch32, draw, rfl⟩)
  case translate sec va choice =>
    obtain ⟨r, rfl⟩ := translate_next sec va choice s t h
    exact .inl rfl
  all_goals
    cases h
    exact .inl (by simp [contextSync])

/-- A step that runs an instruction changes neither `Cfg` nor `Env` (R106). -/
theorem exec_of_fetches_cfg_env {s u t : State} {bytes : List Byte} (i : Instr) (hf : Fetches s u bytes)
    (he : exec i u = .next t) : t.cfg = s.cfg ∧ t.env = s.env := by
  obtain ⟨rest, l, rfl, -, -⟩ := hf.state
  obtain ⟨-, -, -, -, henv, -, -, hcfg, -⟩ := exec_next_frame i _ t he
  exact ⟨hcfg, henv⟩

/-- Settles O30: a step runs an instruction, which leaves both alone, or applies the input at the head of the schedule. -/
theorem cfgIsFixedAndEnvIsTheEnvironments : Obligations.CfgIsFixedAndEnvIsTheEnvironments := by
  intro s t hstep
  rcases step_next_cases s t hstep with ⟨u, bytes, i, hf, -, he⟩ | ⟨i, rest, -, hs, happly⟩
  · obtain ⟨hcfg, henv⟩ := exec_of_fetches_cfg_env i hf he
    exact ⟨hcfg, fun hne => absurd henv hne⟩
  · refine ⟨applyInput_cfg i { s with inputs := rest } t happly, fun hne => ?_⟩
    rcases applyInput_env i { s with inputs := rest } t happly with henv | ⟨d, rfl⟩ | ⟨k, a, d, rfl⟩
    · exact absurd henv hne
    · exact .inl ⟨d, rest, hs⟩
    · exact .inr ⟨k, a, d, rest, hs⟩

end Sys2Proof.Machine

/-! ## Proofs: the invariant of the state -/

namespace Sys2Proof.Machine

/-- A reset keeps the form that State keeps exactly when its draw has memory and TLB in canonical form. -/
@[simp] theorem Input.wf_reset (k : ResetKind) (a : Bool) (d : Arch) :
    Input.wf (.reset k a d) = true ↔ Memory.wf d.mem ∧ Tlb.wf d.tlb := by
  simp [Input.wf]

@[simp] theorem writeTcrEl1_mem (v : BitVec 64) (s : State) : (writeTcrEl1 v s).mem = s.mem := by
  simp [writeTcrEl1, State.writeBank]

@[simp] theorem writeTcrEl1_tlb (v : BitVec 64) (s : State) : (writeTcrEl1 v s).tlb = s.tlb := by
  simp [writeTcrEl1, State.writeBank]

@[simp] theorem writeTcrEl1_inputs (v : BitVec 64) (s : State) : (writeTcrEl1 v s).inputs = s.inputs := by
  simp [writeTcrEl1, State.writeBank]

/-- What an input does to memory, the TLB and the rest of the schedule: it leaves all three alone, or fills the TLB or evicts
from it (R49, D13), or is a reset, whose draw has the new memory and TLB (R52, log 31). -/
theorem applyInput_mem_tlb (i : Input) (s t : State) (h : applyInput i s = .next t) :
    t.inputs = s.inputs ∧
      ((t.mem = s.mem ∧ t.tlb = s.tlb) ∨
       (∃ va, t.mem = s.mem ∧ t.tlb = Tlb.fill s.tlb va) ∨
       (∃ va, t.mem = s.mem ∧ t.tlb = Tlb.evict s.tlb va) ∨
       ∃ k a d, i = .reset k a d ∧ t.mem = d.mem ∧ t.tlb = d.tlb) := by
  cases i
  case translate sec va choice =>
    obtain ⟨r, rfl⟩ := translate_next sec va choice s t h
    exact ⟨rfl, .inl ⟨rfl, rfl⟩⟩
  case tlbFill va =>
    cases h
    exact ⟨rfl, .inr (.inl ⟨va, rfl, rfl⟩)⟩
  case tlbEvict va =>
    cases h
    exact ⟨rfl, .inr (.inr (.inl ⟨va, rfl, rfl⟩))⟩
  case reset k a d =>
    cases h
    exact ⟨rfl, .inr (.inr (.inr ⟨k, a, d, rfl, resetArch_mem a d, resetArch_tlb a d⟩))⟩
  all_goals
    cases h
    exact ⟨by simp [contextSync], .inl (by simp [contextSync])⟩

/-- Applying an input whose own data is in canonical form keeps the invariant. -/
theorem applyInput_keeps_inv (i : Input) (s t : State) (hi : Input.wf i = true) (hs : s.Inv)
    (h : applyInput i s = .next t) : t.Inv := by
  obtain ⟨hmem, htlb, hinputs⟩ := hs
  obtain ⟨hin, hcases⟩ := applyInput_mem_tlb i s t h
  rw [State.Inv, hin]
  rcases hcases with ⟨hm, ht⟩ | ⟨va, hm, ht⟩ | ⟨va, hm, ht⟩ | ⟨k, a, d, rfl, hm, ht⟩ <;> rw [hm, ht]
  · exact ⟨hmem, htlb, hinputs⟩
  · exact ⟨hmem, Tlb.wf_fill s.tlb va htlb, hinputs⟩
  · exact ⟨hmem, Tlb.wf_evict s.tlb va htlb, hinputs⟩
  · obtain ⟨hdmem, hdtlb⟩ := (Input.wf_reset k a d).1 hi
    exact ⟨hdmem, hdtlb, hinputs⟩

/-- Running a fetched instruction keeps the invariant: it leaves memory and the TLB alone (R106) and at most takes the head
off the schedule. -/
theorem exec_of_fetches_keeps_inv {s u t : State} {bytes : List Byte} (i : Instr) (hs : s.Inv) (hf : Fetches s u bytes)
    (he : exec i u = .next t) : t.Inv := by
  obtain ⟨hmem, htlb, hinputs⟩ := hs
  obtain ⟨rest, l, rfl, -, rfl⟩ := hf.state
  obtain ⟨-, -, -, -, -, hm, ht, -, hin⟩ := exec_next_frame i _ t he
  refine ⟨hm ▸ hmem, ht ▸ htlb, fun j hj => hinputs j (List.mem_of_mem_tail ?_)⟩
  rwa [hin] at hj

/-- Settles O27: a step runs the instruction it fetched, or applies the input at the head of the schedule, whose data the
invariant has in canonical form. -/
theorem everyStepKeepsTheInvariant : Obligations.EveryStepKeepsTheInvariant := by
  intro s t hs hstep
  rcases step_next_cases s t hstep with ⟨u, bytes, i, hf, -, he⟩ | ⟨i, rest, -, hin, happly⟩
  · exact exec_of_fetches_keeps_inv i hs hf he
  · obtain ⟨hmem, htlb, hinputs⟩ := hs
    rw [hin, List.forall_mem_cons] at hinputs
    exact applyInput_keeps_inv i { s with inputs := rest } t hinputs.1 ⟨hmem, htlb, hinputs.2⟩ happly

/-- Settles O28: after reset memory, the TLB and the schedule are empty, and an empty list is in every canonical form. -/
theorem resetMeetsTheInvariant : Obligations.ResetMeetsTheInvariant := by
  have hmem : Memory.wf State.reset.mem := ⟨.nil, List.forall_mem_nil _⟩
  have htlb : Tlb.wf State.reset.tlb := .nil
  exact ⟨⟨hmem, htlb, List.forall_mem_nil _⟩, rfl, rfl, rfl⟩

/-- Settles O47: the two inputs fill and evict, and the members after either are known. -/
theorem tlbFillAndEvict : Obligations.TlbFillAndEvict := by
  intro s va rest
  exact ⟨⟨_, step_input s (.tlbFill va) rest rfl, Tlb.mem_fill s.tlb va⟩,
    ⟨_, step_input s (.tlbEvict va) rest rfl, Tlb.mem_evict s.tlb va⟩⟩

end Sys2Proof.Machine

/-! ## Proofs: the fields of the two formats -/

namespace Sys2Proof.Machine

/-- A bit as a one-bit field. -/
theorem extractLsb'_one_eq_ofBool (v : Word) (i : Nat) : v.extractLsb' i 1 = BitVec.ofBool (v.getLsbD i) := by
  rw [← extractLsb'_one_eq]
  generalize v.extractLsb' i 1 = b
  revert b
  decide

/-! ### EAE == 0 (R15) -/

/-- A value of the EAE == 0 format is its fields put together. -/
theorem ShortFields.toWord_ofWord (v : Word) (h : eae v = false) : (ShortFields.ofWord v).toWord = v := by
  have htop : 0b0#1 = v.extractLsb' 31 1 := by rw [extractLsb'_one_eq_ofBool, ← eae, h]; rfl
  simp (disch := decide) only [ShortFields.toWord, ShortFields.ofWord, htop,
    BitVec.extractLsb'_append_extractLsb'_eq_extractLsb']
  exact BitVec.extractLsb'_eq_self

/-- Fields put together in the EAE == 0 format read back as themselves. -/
theorem ShortFields.ofWord_toWord (f : ShortFields) : ShortFields.ofWord f.toWord = f := by
  simp (disch := decide) only [ShortFields.toWord, ShortFields.ofWord, BitVec.extractLsb'_append_eq_of_le,
    BitVec.extractLsb'_append_eq_of_add_le, Nat.reduceSub, BitVec.extractLsb'_eq_self]

theorem ShortFields.eae_toWord (f : ShortFields) : eae f.toWord = false := by
  rw [eae, ← extractLsb'_one_eq]
  simp (disch := decide) only [ShortFields.toWord, BitVec.extractLsb'_append_eq_of_le, Nat.reduceSub]
  rfl

/-- Settles O38: `toWord` is the register figure, and it is inverse to `ofWord` on the values of the format. -/
theorem shortFormatFieldsPartitionTheRegister : Obligations.ShortFormatFieldsPartitionTheRegister := by
  refine ⟨fun v h => (ShortFields.toWord_ofWord v h).symm, fun a b c d e => ?_⟩
  have hformat := (tableFormat_eq_short _).2 (ShortFields.eae_toWord ⟨a, b, c, d, e⟩)
  exact ⟨hformat, ShortFields.ofWord_toWord ⟨a, b, c, d, e⟩⟩

/-! ### EAE == 1 (R22) -/

/-- A value of the EAE == 1 format is its fields put together. -/
theorem LongFields.toWord_ofWord (v : Word) (h : eae v = true) : (LongFields.ofWord v).toWord = v := by
  have htop : 0b1#1 = v.extractLsb' 31 1 := by rw [extractLsb'_one_eq_ofBool, ← eae, h]; rfl
  simp (disch := decide) only [LongFields.toWord, LongFields.ofWord, htop,
    BitVec.extractLsb'_append_extractLsb'_eq_extractLsb']
  exact BitVec.extractLsb'_eq_self

/-- Fields put together in the EAE == 1 format read back as themselves. -/
theorem LongFields.ofWord_toWord (f : LongFields) : LongFields.ofWord f.toWord = f := by
  simp (disch := decide) only [LongFields.toWord, LongFields.ofWord, BitVec.extractLsb'_append_eq_of_le,
    BitVec.extractLsb'_append_eq_of_add_le, Nat.reduceSub, BitVec.extractLsb'_eq_self]

theorem LongFields.eae_toWord (f : LongFields) : eae f.toWord = true := by
  rw [eae, ← extractLsb'_one_eq]
  simp (disch := decide) only [LongFields.toWord, BitVec.extractLsb'_append_eq_of_le, Nat.reduceSub]
  rfl

/-- Bit [6] of the EAE == 1 format is reserved exactly without FEAT_AA32HPD (R36). -/
theorem isRes0_six_iff (cfg : Cfg) (v : Word) (h : eae v = true) : IsRes0 cfg v 6 ↔ cfg.featAA32HPD = false := by
  simp [IsRes0, h]

/-- With FEAT_AA32HPD bit [6] of the EAE == 1 format is T2E (R36). -/
theorem t2e_toWord_iff (cfg : Cfg) (f : LongFields) :
    t2e cfg f.toWord = true ↔ cfg.featAA32HPD = true ∧ f.bit6 = 1 := by
  simp [t2e, LongFields.eae_toWord, LongFields.ofWord_toWord]

/-- Settles O39: `toWord` is the register figure, and it is inverse to `ofWord` on the values of the format. -/
theorem longFormatFieldsPartitionTheRegister : Obligations.LongFormatFieldsPartitionTheRegister := by
  refine ⟨fun v h => (LongFields.toWord_ofWord v h).symm, fun f => ?_⟩
  have heae := LongFields.eae_toWord f
  exact ⟨(tableFormat_eq_long _).2 heae, LongFields.ofWord_toWord f,
    fun cfg => ⟨isRes0_six_iff cfg f.toWord heae, t2e_toWord_iff cfg f⟩⟩

end Sys2Proof.Machine

/-! ## Proofs: RES0 bits and translation -/

namespace Sys2Proof.Machine

/-- Two values of one format that differ in RES0 positions alone (R40). -/
structure AgreeOutsideRes0 (cfg : Cfg) (v w : Word) : Prop where
  eae_eq : eae v = eae w
  bit_eq : ∀ i, i < 32 → ¬ IsRes0 cfg v i → v.getLsbD i = w.getLsbD i

/-- The positions that the EAE == 0 format gives to fields below EAE: N, PD0 and PD1 (R15). -/
theorem not_isRes0_short (cfg : Cfg) (v : Word) (i : Nat) (h : eae v = false) (hi : i < 3 ∨ i = 4 ∨ i = 5) :
    ¬ IsRes0 cfg v i := by
  simp only [IsRes0, h, true_and, Bool.false_eq_true, false_and, or_false]
  omega

/-- The positions that the EAE == 1 format gives to fields whatever the configuration: T0SZ, EPD0 up to SH0, T1SZ, and A1
up to EAE (R22). -/
theorem not_isRes0_long (cfg : Cfg) (v : Word) (i : Nat) (h : eae v = true)
    (hi : i < 3 ∨ (7 ≤ i ∧ i < 14) ∨ (16 ≤ i ∧ i < 19) ∨ 22 ≤ i) : ¬ IsRes0 cfg v i := by
  simp only [IsRes0, h, true_and, Bool.true_eq_false, false_and, false_or]
  omega

namespace AgreeOutsideRes0

variable {cfg : Cfg} {v w : Word} (h : AgreeOutsideRes0 cfg v w)
include h

/-- A field clear of the RES0 positions is the same in both values. -/
theorem field_eq (start len : Nat) (hfield : ∀ i, start ≤ i → i < start + len → i < 32 ∧ ¬ IsRes0 cfg v i) :
    v.extractLsb' start len = w.extractLsb' start len := by
  apply BitVec.eq_of_getLsbD_eq
  intro i hi
  obtain ⟨hlt, hres⟩ := hfield (start + i) (by omega) (by omega)
  simp only [BitVec.getLsbD_extractLsb', h.bit_eq _ hlt hres]

/-- N is the same in both values of the EAE == 0 format. -/
theorem n_eq (he : eae v = false) : (ShortFields.ofWord v).n = (ShortFields.ofWord w).n :=
  h.field_eq 0 3 fun i _ hi => ⟨by omega, not_isRes0_short cfg v i he (by omega)⟩

/-- A field of the EAE == 1 format within T0SZ, EPD0 up to SH0, T1SZ, or IRGN1 up to IMPL and EAE. -/
theorem long_field_eq (he : eae v = true) (start len : Nat)
    (hfield : start + len ≤ 3 ∨ (7 ≤ start ∧ start + len ≤ 14) ∨ (16 ≤ start ∧ start + len ≤ 19) ∨
      (22 ≤ start ∧ start + len ≤ 32)) : v.extractLsb' start len = w.extractLsb' start len :=
  h.field_eq start len fun i _ _ => ⟨by omega, not_isRes0_long cfg v i he (by omega)⟩

theorem shField_eq (he : eae v = true) (x : TtbrNum) : shField v x = shField w x := by
  cases x with
  | ttbr0 => exact h.long_field_eq he 12 2 (by decide)
  | ttbr1 => exact h.long_field_eq he 28 2 (by decide)

theorem orgnField_eq (he : eae v = true) (x : TtbrNum) : orgnField v x = orgnField w x := by
  cases x with
  | ttbr0 => exact h.long_field_eq he 10 2 (by decide)
  | ttbr1 => exact h.long_field_eq he 26 2 (by decide)

theorem irgnField_eq (he : eae v = true) (x : TtbrNum) : irgnField v x = irgnField w x := by
  cases x with
  | ttbr0 => exact h.long_field_eq he 8 2 (by decide)
  | ttbr1 => exact h.long_field_eq he 24 2 (by decide)

theorem tszField_eq (he : eae v = true) (x : TtbrNum) : tszField v x = tszField w x := by
  cases x with
  | ttbr0 => exact h.long_field_eq he 0 3 (by decide)
  | ttbr1 => exact h.long_field_eq he 16 3 (by decide)

theorem asidTtbr_eq (he : eae v = true) : asidTtbr v = asidTtbr w := by
  have ha1 : (LongFields.ofWord v).a1 = (LongFields.ofWord w).a1 := h.long_field_eq he 22 1 (by decide)
  rw [asidTtbr, asidTtbr, ha1]

theorem walkAttributes_eq (he : eae v = true) (x : TtbrNum) : walkAttributes v x = walkAttributes w x := by
  rw [walkAttributes, walkAttributes, h.shField_eq he, h.orgnField_eq he, h.irgnField_eq he]

/-- Bit [6] counts for TTBCR2 only where it is T2E, and there it is no RES0 position (R36, R67). -/
theorem ttbcr2Enabled_eq : ttbcr2Enabled cfg v = ttbcr2Enabled cfg w := by
  rw [Machine.ttbcr2Enabled_eq, Machine.ttbcr2Enabled_eq, ← h.eae_eq]
  cases he : eae v with
  | false => simp
  | true =>
    cases hhpd : cfg.featAA32HPD with
    | false => simp
    | true =>
      have hres : ¬ IsRes0 cfg v 6 := by simp [isRes0_six_iff cfg v he, hhpd]
      rw [h.bit_eq 6 (by decide) hres]

theorem ttbcr2InUse_eq (x : Word) : ttbcr2InUse cfg v x = ttbcr2InUse cfg w x := by
  rw [ttbcr2InUse, ttbcr2InUse, h.ttbcr2Enabled_eq]

theorem selectTtbr_eq (va : Word) : selectTtbr v va = selectTtbr w va := by
  rw [selectTtbr, selectTtbr, ← h.eae_eq]
  cases he : eae v with
  | false => simp only [h.n_eq he, Bool.false_eq_true, if_false]
  | true =>
    have ht0 : (LongFields.ofWord v).t0sz = (LongFields.ofWord w).t0sz := h.tszField_eq he .ttbr0
    have ht1 : (LongFields.ofWord v).t1sz = (LongFields.ofWord w).t1sz := h.tszField_eq he .ttbr1
    simp only [ht0, ht1, if_true]

/-- The walk disable bits are no RES0 positions (R64). -/
theorem walkDisabled_eq (x : TtbrNum) : walkDisabled v x = walkDisabled w x := by
  rw [Machine.walkDisabled_eq, Machine.walkDisabled_eq, ← h.eae_eq]
  cases he : eae v with
  | false =>
    simp only [h.bit_eq 4 (by decide) (not_isRes0_short cfg v 4 he (by decide)),
      h.bit_eq 5 (by decide) (not_isRes0_short cfg v 5 he (by decide)), Bool.false_eq_true, if_false]
  | true =>
    simp only [h.bit_eq 7 (by decide) (not_isRes0_long cfg v 7 he (by decide)),
      h.bit_eq 23 (by decide) (not_isRes0_long cfg v 23 he (by decide)), if_true]

end AgreeOutsideRes0

section
variable {s : State} {v w : Word} (h : AgreeOutsideRes0 s.cfg v w) (va : Word)
include h

theorem AgreeOutsideRes0.shortWalk_eq (he : eae v = false) (x : TtbrNum) : shortWalk s v va x = shortWalk s w va x := by
  cases x <;> simp only [shortWalk, shortBase, h.n_eq he, h.ttbcr2InUse_eq]

theorem AgreeOutsideRes0.longWalk_eq (he : eae v = true) (x : TtbrNum) (attrs : WalkAttributes) :
    longWalk s v va x attrs = longWalk s w va x attrs := by
  simp only [longWalk, h.tszField_eq he, h.asidTtbr_eq he, h.ttbcr2InUse_eq]

theorem AgreeOutsideRes0.walkThrough_eq (x : TtbrNum) : walkThrough s v va x = walkThrough s w va x := by
  have hw := h.eae_eq
  cases he : eae v with
  | false => rw [walkThrough_short s v va x he, walkThrough_short s w va x (hw ▸ he), h.shortWalk_eq va he]
  | true =>
    rw [walkThrough, walkThrough, (tableFormat_eq_long v).2 he, (tableFormat_eq_long w).2 (hw ▸ he),
      h.walkAttributes_eq he]
    simp only [h.longWalk_eq va he]

theorem AgreeOutsideRes0.resolvePlain_eq : resolvePlain s v va = resolvePlain s w va := by
  simp only [resolvePlain, missThrough, h.selectTtbr_eq, h.walkDisabled_eq, h.walkThrough_eq]

/-- RES0 positions have no effect on what a translation comes to, and bit [30] is none of them where it has an effect
(R23, R40). -/
theorem AgreeOutsideRes0.resolve_eq : resolve s v va = resolve s w va := by
  rw [resolve, resolve, h.resolvePlain_eq, ← h.eae_eq]
  cases he : eae v with
  | false => rfl
  | true =>
    have himpl : (LongFields.ofWord v).impl = (LongFields.ofWord w).impl := h.long_field_eq he 30 1 (by decide)
    rw [himpl]

end

/-- Settles O40: every field that a translation reads is clear of the RES0 positions of its format. -/
theorem res0BitsHaveNoEffectOnTranslation : Obligations.Res0BitsHaveNoEffectOnTranslation := by
  intro s v w va heae hbits
  exact AgreeOutsideRes0.resolve_eq ⟨heae, hbits⟩ va

end Sys2Proof.Machine

/-! ## Proofs: TCR_EL1 and the mapped storage -/

namespace Sys2Proof.Machine

/-- TCR_EL1[31:0] reads what the mapped name reads (R13). -/
theorem tcrEl1_low (s : State) : s.tcrEl1.extractLsb' 0 32 = s.readBank (mappedBank s.cfg s.env) :=
  BitVec.extractLsb'_append_eq_right

theorem tcrEl1_high (s : State) : s.tcrEl1.extractLsb' 32 32 = s.tcrEl1Hi :=
  BitVec.extractLsb'_append_eq_left

/-- A TCR_EL1 write is a write of the mapped name (R13, D17). -/
theorem writeTcrEl1_bank_mapped (v : BitVec 64) (s : State) :
    (writeTcrEl1 v s).bank (mappedBank s.cfg s.env) = (s.bank (mappedBank s.cfg s.env)).write (v.setWidth 32) := by
  rw [writeTcrEl1_bank, if_pos rfl]

/-- A TCR_EL1 write leaves TTBCR_S alone, which is never mapped (D17). -/
theorem writeTcrEl1_ttbcrS (v : BitVec 64) (s : State) : (writeTcrEl1 v s).ttbcrS = s.ttbcrS := by
  have h := writeTcrEl1_bank v s .ttbcrS
  rwa [if_neg (mappedBank_ne_ttbcrS s.cfg s.env).symm] at h

/-- The mapped name in the terms of R103. -/
theorem mappedBank_eq_ttbcrNS_iff (s : State) : mappedBank s.cfg s.env = .ttbcrNS ↔ El3IsAArch32 s := by
  rw [← el3IsAArch32_iff]
  cases h : el3IsAArch32 s.cfg s.env <;> simp [mappedBank, h]

theorem mappedBank_eq_ttbcr_iff (s : State) : mappedBank s.cfg s.env = .ttbcr ↔ ¬ El3IsAArch32 s := by
  rw [← el3IsAArch32_iff]
  cases h : el3IsAArch32 s.cfg s.env <;> simp [mappedBank, h]

/-- What EL1 and EL2 reach is the mapped name (R103, D17). -/
theorem Reaches.eq_mappedBank {s : State} {b : Bank} (h : Reaches s b) (hel : s.env.el = .el1 ∨ s.env.el = .el2) :
    b = mappedBank s.cfg s.env := by
  have hnot : s.env.el ≠ .el3 := by rcases hel with he | he <;> simp [he]
  rcases h with ⟨-, h3, rfl⟩ | ⟨-, h3, rfl⟩ | ⟨-, h3, rfl⟩ | ⟨-, h3, rfl⟩ | ⟨he, -⟩ | ⟨he, -⟩
  · exact ((mappedBank_eq_ttbcrNS_iff s).2 h3).symm
  · exact ((mappedBank_eq_ttbcr_iff s).2 h3).symm
  · exact ((mappedBank_eq_ttbcrNS_iff s).2 h3).symm
  · exact ((mappedBank_eq_ttbcr_iff s).2 h3).symm
  · exact absurd he hnot
  · exact absurd he hnot

/-- TCR_EL1[31:0] read back after a write: the low half, masked as the RES0 policy masks a read of TTBCR (log 20). -/
theorem tcrEl1_low_writeTcrEl1 (v : BitVec 64) (s : State) :
    (writeTcrEl1 v s).tcrEl1.extractLsb' 0 32 = readValue s.cfg (v.setWidth 32) := by
  rw [tcrEl1_low, writeTcrEl1_cfg, writeTcrEl1_env, State.readBank, writeTcrEl1_cfg, writeTcrEl1_bank_mapped,
    Ttbcr.write_value]

/-- TCR_EL1[63:32] reads back as written (log 20). -/
theorem tcrEl1_high_writeTcrEl1 (v : BitVec 64) (s : State) :
    (writeTcrEl1 v s).tcrEl1.extractLsb' 32 32 = v.extractLsb' 32 32 :=
  tcrEl1_high (writeTcrEl1 v s)

/-- Settles O46: the write goes to the mapped name and to the upper half, and changes neither `Cfg` nor `Env`, so the same
name is mapped when TCR_EL1 is read back. -/
theorem tcrEl1IsTheMappedStorage : Obligations.TcrEl1IsTheMappedStorage := by
  intro s v rest
  have hvalue := congrArg Ttbcr.value (writeTcrEl1_bank_mapped v { s with inputs := rest })
  exact ⟨tcrEl1_low s, _, step_input s (.writeTcrEl1 v) rest rfl, hvalue, tcrEl1_low_writeTcrEl1 v _,
    tcrEl1_high_writeTcrEl1 v _, writeTcrEl1_ttbcrS v _, fun b hel hb => hb.eq_mappedBank hel⟩

end Sys2Proof.Machine

/-! ## Proofs: translation requests -/

namespace Sys2Proof.Machine

/-! ### What a request comes to where bit [30] has no effect (R64) -/

section
variable (s : State) (v va : Word) (x : TtbrNum)

theorem missThrough_disabled (h : walkDisabled v x = true) : missThrough s v va x = .translationFault va x := by
  rw [missThrough, if_pos h]

theorem missThrough_enabled (h : walkDisabled v x = false) : missThrough s v va x = walkThrough s v va x := by
  rw [missThrough, h, if_neg Bool.false_ne_true]

theorem resolve_hit (hn : NoImpdef v) (hmem : va ∈ s.tlb) : resolve s v va = .cached va := by
  rw [resolve_of_noImpdef s v va hn, resolvePlain_hit s v va hmem]

theorem resolve_noRegion (hn : NoImpdef v) (hmem : va ∉ s.tlb) (hx : selectTtbr v va = .noRegion) :
    resolve s v va = .noRegion va := by
  rw [resolve_of_noImpdef s v va hn, resolvePlain_noRegion s v va hmem hx]

theorem resolve_miss (hn : NoImpdef v) (hmem : va ∉ s.tlb) (hx : selectTtbr v va = regionOf x) :
    resolve s v va = missThrough s v va x := by
  rw [resolve_of_noImpdef s v va hn, resolvePlain_miss s v va x hmem hx]

/-- Walks are enabled and the Shareability is not the reserved one: there is a walk, of the address and through the TTBR
(R64, D19). -/
theorem missThrough_eq_walk (hd : walkDisabled v x = false) (hsh : eae v = true → shField v x ≠ 0b01#2) :
    ∃ w, w.va = va ∧ w.ttbr = x ∧ missThrough s v va x = .walk w := by
  rw [missThrough_enabled s v va x hd]
  cases he : eae v with
  | false => exact ⟨shortWalk s v va x, rfl, rfl, walkThrough_short s v va x he⟩
  | true =>
    obtain ⟨q, hq⟩ := Option.ne_none_iff_exists'.1 (mt (shareability_eq_none _).1 (hsh he))
    exact ⟨_, rfl, rfl, walkThrough_long s v va x q he hq⟩

end

/-- Settles O41: a hit is cached, and on a miss the selection, the disable bit and the Shareability decide in turn. -/
theorem walkDisableActsOnATlbMissAlone : Obligations.WalkDisableActsOnATlbMissAlone := by
  intro s sec va v choice rest hv hn
  rw [step_translate, hv]
  refine ⟨fun hhit => by rw [resolve_hit s v va hn hhit]; rfl, fun hmiss => ?_⟩
  rcases selectTtbr_cases v va with hx | ⟨x, hx⟩
  · exact .inl ⟨hx, by rw [resolve_noRegion s v va hn hmiss hx]; rfl⟩
  · refine .inr ⟨x, hx, ?_⟩
    rw [← walkDisabled_eq, ← shField_eq, resolve_miss s v va x hn hmiss hx]
    refine ⟨fun hd => ?_, fun hd hsh => ?_, fun hd he hsh => ?_⟩
    · rw [missThrough_disabled s v va x hd]
      rfl
    · obtain ⟨w, hva, httbr, hw⟩ := missThrough_eq_walk s v va x hd (not_and.1 hsh)
      exact ⟨w, hva, httbr, by rw [hw]; rfl⟩
    · rw [missThrough_enabled s v va x hd, walkThrough_reserved s v va x he hsh]
      rfl

/-! ### Translated fetches (R78) -/

theorem translate_eq (sec : Security) (va : Word) (choice : Nat) (s : State) :
    translate sec va choice s = settle s (resolve s (valueInUse s sec choice) va) := rfl

/-- A request that hits, or that misses with a walk, is served: it leaves a record and no other change. -/
theorem translate_served (s : State) (sec : Security) (va v : Word) (choice : Nat) (hv : valueInUse s sec choice = v)
    (hn : NoImpdef v)
    (h : va ∈ s.tlb ∨
      ∃ x, selectTtbr v va = regionOf x ∧ walkDisabled v x = false ∧ (eae v = true → shField v x ≠ 0b01#2)) :
    ∃ r, translate sec va choice s = .next { s with lastTranslation := some r } := by
  rw [translate_eq, hv]
  by_cases hmem : va ∈ s.tlb
  · exact ⟨.cached va, by rw [resolve_hit s v va hn hmem]; rfl⟩
  · obtain ⟨x, hx, hd, hsh⟩ := h.resolve_left hmem
    obtain ⟨w, -, -, hw⟩ := missThrough_eq_walk s v va x hd hsh
    exact ⟨.walk w, by rw [resolve_miss s v va x hn hmem hx, hw]; rfl⟩

theorem translate_disabled (s : State) (sec : Security) (va v : Word) (choice : Nat) (x : TtbrNum)
    (hv : valueInUse s sec choice = v) (hn : NoImpdef v) (hmem : va ∉ s.tlb) (hx : selectTtbr v va = regionOf x)
    (hd : walkDisabled v x = true) : translate sec va choice s = .fault (.translationFault va (some x)) := by
  rw [translate_eq, hv, resolve_miss s v va x hn hmem hx, missThrough_disabled s v va x hd]
  rfl

theorem step_executeTranslated (s : State) (sec : Security) (first second : FetchDraw) (rest : List Input)
    (h : s.inputs = .executeTranslated sec first second :: rest) :
    step s = runFetched (fetchTranslated sec first second { s with inputs := rest }) := by
  unfold step
  rw [h]

section
variable (sec : Security) (first second : FetchDraw) (s : State)

/-- A unit whose request faults is a fetch that faults (R124). -/
theorem fetchUnit_fault (va : Word) (n : Nat) (d : FetchDraw) (f : Fault)
    (h : translate sec va d.choice s = .fault f) : fetchUnit sec va n d s = .fault f := by
  rw [fetchUnit, h]

variable (halign : s.pc.toNat % s.env.memoryModel.unit s.isa = 0)
include halign

theorem fetchTranslated_a32 (hisa : s.isa = .a32) :
    fetchTranslated sec first second s = fetchUnit sec s.pc 4 first s := by
  rw [fetchTranslated, if_pos halign, hisa]

/-- A first halfword whose request faults stops the fetch. -/
theorem fetchTranslated_t32_first_fault (hisa : s.isa = .t32) (f : Fault)
    (h : translate sec s.pc first.choice s = .fault f) : fetchTranslated sec first second s = .fault f := by
  rw [fetchTranslated, if_pos halign, hisa]
  simp only [fetchUnit_fault sec s s.pc 2 first f h]

variable (hisa : s.isa = .t32) (u : State) (lower : List Byte)
  (hlower : fetchUnit sec s.pc 2 first s = .next (u, lower))
include hisa hlower

/-- A second halfword whose request faults stops the fetch. -/
theorem fetchTranslated_t32_second_fault (f : Fault) (h : translate sec (s.pc + 2) second.choice u = .fault f) :
    fetchTranslated sec first second s = .fault f := by
  rw [fetchTranslated, if_pos halign, hisa]
  simp only [hlower, fetchUnit_fault sec u (s.pc + 2) 2 second f h]

theorem fetchTranslated_t32_next (w : State) (upper : List Byte)
    (h : fetchUnit sec (s.pc + 2) 2 second u = .next (w, upper)) :
    fetchTranslated sec first second s = .next (w, lower ++ upper) := by
  rw [fetchTranslated, if_pos halign, hisa]
  simp only [hlower, h]

end

/-- Bytes read in memory as it was before the request are those of the unit, since a request leaves memory alone. -/
theorem fetchUnit_of_readUnit (sec : Security) (va : Word) (n : Nat) (d : FetchDraw) (s u : State) (bytes : List Byte)
    (hu : translate sec va d.choice s = .next u) (hb : readUnit s.env.memoryModel s.mem d.pa n = .ok bytes) :
    fetchUnit sec va n d s = .next (u, bytes) := by
  obtain ⟨r, rfl⟩ := translate_next sec va d.choice s u hu
  exact (fetchUnit_eq_next sec va n d s _ bytes).2 ⟨hu, hb⟩

section
variable {s : State} {sec : Security} {first second : FetchDraw} {rest : List Input}
  (hs : s.inputs = .executeTranslated sec first second :: rest)
include hs

/-- A translated fetch that faults is a step that faults. -/
theorem step_of_fetchTranslated_fault (f : Fault)
    (h : fetchTranslated sec first second { s with inputs := rest } = .fault f) : step s = .fault f := by
  rw [step_executeTranslated s sec first second rest hs, h]
  rfl

/-- A translated fetch of the bytes of an instruction is a step that is exec of it. -/
theorem step_of_fetchTranslated_next (u : State) (bytes : List Byte) (i : Instr)
    (h : fetchTranslated sec first second { s with inputs := rest } = .next (u, bytes)) (hd : decode s.isa bytes = .ok i) :
    step s = exec i u :=
  step_of_fetches_decode (.inr (.inr ⟨sec, first, second, rest, hs, h⟩)) hd

end

/-- Settles O26: the step runs what the translated fetch has fetched, by one request in A32 and one a halfword in T32. -/
theorem fetchesAreTranslatedInTheRegime : Obligations.FetchesAreTranslatedInTheRegime := by
  intro s sec first second rest hs
  refine ⟨fun v hisa hunit hv hn => ?_, fun hisa hunit => ?_⟩
  · have halign : s.pc.toNat % s.env.memoryModel.unit s.isa = 0 := hisa.symm ▸ hunit
    have hfetch := fetchTranslated_a32 sec first second { s with inputs := rest } halign hisa
    refine ⟨fun x hmem hx hd => ?_, fun bytes i hserved hbytes hdec => ?_⟩
    · have hfault := translate_disabled { s with inputs := rest } sec s.pc v first.choice x hv hn hmem hx hd
      exact step_of_fetchTranslated_fault hs _ (hfetch.trans (fetchUnit_fault sec _ s.pc 4 first _ hfault))
    · obtain ⟨r, hr⟩ := translate_served { s with inputs := rest } sec s.pc v first.choice hv hn hserved
      have hfetched := fetchUnit_of_readUnit sec s.pc 4 first { s with inputs := rest } _ bytes hr hbytes
      exact ⟨r, step_of_fetchTranslated_next hs _ bytes i (hfetch.trans hfetched) (hisa ▸ hdec)⟩
  · have halign : s.pc.toNat % s.env.memoryModel.unit s.isa = 0 := hisa.symm ▸ hunit
    constructor
    · intro f hf
      exact step_of_fetchTranslated_fault hs f
        (fetchTranslated_t32_first_fault sec first second { s with inputs := rest } halign hisa f hf)
    · intro u lower hu hl
      have hlower := fetchUnit_of_readUnit sec s.pc 2 first { s with inputs := rest } u lower hu hl
      constructor
      · intro f hf
        exact step_of_fetchTranslated_fault hs f
          (fetchTranslated_t32_second_fault sec first second { s with inputs := rest } halign hisa u lower hlower f hf)
      · intro w upper i hw hup hdec
        obtain ⟨r, rfl⟩ := translate_next sec s.pc first.choice _ u hu
        have hupper := fetchUnit_of_readUnit sec (s.pc + 2) 2 second _ w upper hw hup
        exact step_of_fetchTranslated_next hs w (lower ++ upper) i
          (fetchTranslated_t32_next sec first second { s with inputs := rest } halign hisa _ lower hlower w upper hupper)
          (hisa ▸ hdec)

end Sys2Proof.Machine

/-! ## Proofs: the storage in force, and when TTBCR2 is enabled -/

namespace Sys2Proof.Machine

theorem inForceBank_secure (s : State) (h : El3IsAArch32 s) : inForceBank s.cfg s.env .secure = .ttbcrS := by
  simp only [inForceBank, (el3IsAArch32_iff s).2 h, if_true]

theorem inForceBank_nonSecure (s : State) (h : El3IsAArch32 s) : inForceBank s.cfg s.env .nonSecure = .ttbcrNS := by
  simp only [inForceBank, (el3IsAArch32_iff s).2 h, if_true]

theorem inForceBank_of_not_el3IsAArch32 (s : State) (h : ¬ El3IsAArch32 s) (sec : Security) :
    inForceBank s.cfg s.env sec = .ttbcr := by
  simp only [inForceBank, mt (el3IsAArch32_iff s).1 h, Bool.false_eq_true, if_false]

/-- With choice 0 a translation uses the current value of the name in force (R60, R148). -/
theorem valueInUse_zero (s : State) (sec : Security) (b : Bank) (h : inForceBank s.cfg s.env sec = b) :
    valueInUse s sec 0 = (s.bank b).value := by
  rw [valueInUse, h, Ttbcr.pick_zero]

/-- Settles O49: with choice 0 the value in use is the current one of the name in force. -/
theorem translationsUseTheInForceInstance : Obligations.TranslationsUseTheInForceInstance := by
  intro s
  exact ⟨fun h => ⟨valueInUse_zero s .secure .ttbcrS (inForceBank_secure s h),
      valueInUse_zero s .nonSecure .ttbcrNS (inForceBank_nonSecure s h)⟩,
    fun h sec => valueInUse_zero s sec .ttbcr (inForceBank_of_not_el3IsAArch32 s h sec)⟩

/-- When TTBCR2 is enabled, by bit number (R67). -/
theorem ttbcr2Enabled_iff (cfg : Cfg) (v : Word) :
    ttbcr2Enabled cfg v = true ↔ cfg.featAA32HPD = true ∧ v.getLsbD 31 = true ∧ v.getLsbD 6 = true := by
  rw [ttbcr2Enabled_eq, eae, Bool.and_eq_true, Bool.and_eq_true, and_assoc]

/-- TTBCR2 for every purpose but reading and writing it, by bit number (R67). -/
theorem ttbcr2InUse_eq (cfg : Cfg) (v ttbcr2 : Word) :
    ttbcr2InUse cfg v ttbcr2 =
      if cfg.featAA32HPD = true ∧ v.getLsbD 31 = true ∧ v.getLsbD 6 = true then ttbcr2 else 0 := by
  simp only [ttbcr2InUse, ttbcr2Enabled_iff]

/-- Settles O44: the enable is three bits, and the write of TTBCR2 looks at none of them. -/
theorem ttbcr2IsEnabledByEaeAndT2e : Obligations.Ttbcr2IsEnabledByEaeAndT2e := by
  intro cfg v ttbcr2
  exact ⟨ttbcr2Enabled_iff cfg v, ttbcr2InUse_eq cfg v ttbcr2,
    fun s rest => ⟨_, step_input s (.writeTtbcr2 ttbcr2) rest rfl, rfl⟩⟩

end Sys2Proof.Machine

/-! ## Proofs: walks in the two formats -/

namespace Sys2Proof.Machine

/-- A translation that records a walk came to that walk, and changes the record alone (log 16). -/
theorem settle_eq_next_walk {s t : State} {r : Resolution} {w : Walk} (h : settle s r = .next t)
    (hw : t.lastTranslation = some (.walk w)) : r = .walk w ∧ t = { s with lastTranslation := some (.walk w) } := by
  cases r <;> cases h <;> cases hw
  exact ⟨rfl, rfl⟩

/-! ### EAE == 0 (R63) -/

/-- A walk in the EAE == 0 format is the one of a TLB miss, through the TTBR that the selection gives. -/
theorem eq_shortWalk_of_resolve {s : State} {v va : Word} {w : Walk} (he : eae v = false)
    (h : resolve s v va = .walk w) : ∃ x, selectTtbr v va = regionOf x ∧ w = shortWalk s v va x := by
  have hn : NoImpdef v := .inl he
  by_cases hmem : va ∈ s.tlb
  · rw [resolve_hit s v va hn hmem] at h
    cases h
  · obtain ⟨x, hx⟩ := selectTtbr_short v va he
    rw [resolve_miss s v va x hn hmem hx] at h
    cases hd : walkDisabled v x with
    | true =>
      rw [missThrough_disabled s v va x hd] at h
      cases h
    | false =>
      rw [missThrough_enabled s v va x hd, walkThrough_short s v va x he] at h
      cases h
      exact ⟨x, hx, rfl⟩

/-- TTBCR2 is not enabled in the EAE == 0 format (R67). -/
theorem ttbcr2InUse_short (cfg : Cfg) (v ttbcr2 : Word) (he : eae v = false) : ttbcr2InUse cfg v ttbcr2 = 0 := by
  have hoff : ttbcr2Enabled cfg v = false := by rw [ttbcr2Enabled, he, Bool.false_and]
  rw [ttbcr2InUse, hoff, if_neg Bool.false_ne_true]

/-- The base over zeros, bit by bit (R63). -/
theorem ttbr0Base_getLsbD (n : BitVec 3) (ttbr0 : BitVec 64) (i : Nat) :
    (ttbr0Base n ttbr0).getLsbD i = (decide (14 - n.toNat ≤ i ∧ i ≤ 31) && ttbr0.getLsbD i) := by
  rw [ttbr0Base, BitVec.getLsbD_shiftLeft, BitVec.getLsbD_ushiftRight, BitVec.getLsbD_setWidth, ttbr0LowBit]
  by_cases hlow : 14 - n.toNat ≤ i
  · rw [Nat.add_sub_cancel' hlow, Bool.and_assoc]
    by_cases hhigh : i ≤ 31
    · simp [hlow, hhigh, Nat.lt_succ_iff.2 hhigh]
    · simp [hhigh, mt Nat.lt_succ_iff.1 hhigh]
  · simp [hlow, Nat.not_le.1 hlow]

/-- The base over zeros is a multiple of 2^(14-N) (R63). -/
theorem ttbr0Base_mod (n : BitVec 3) (ttbr0 : BitVec 64) : (ttbr0Base n ttbr0).toNat % 2 ^ (14 - n.toNat) = 0 := by
  have hdvd : 2 ^ (14 - n.toNat) ∣ 2 ^ 32 := Nat.pow_dvd_pow 2 (by omega)
  rw [ttbr0Base, BitVec.toNat_shiftLeft, Nat.shiftLeft_eq, ttbr0LowBit, Nat.mod_mod_of_dvd _ hdvd, Nat.mul_mod_left]

/-- Settles O42: the walk recorded is the Short-descriptor one, whose base through TTBR0 is R63's. -/
theorem shortFormatWalks : Obligations.ShortFormatWalks := by
  intro s t sec va v choice w rest hv he hstep hlast
  rw [step_translate, hv] at hstep
  obtain ⟨hres, ht⟩ := settle_eq_next_walk hstep hlast
  obtain ⟨x, hx, rfl⟩ := eq_shortWalk_of_resolve he hres
  refine ⟨hx, rfl, rfl, rfl, rfl, ttbcr2InUse_short _ _ _ he, ht, ?_, ?_⟩
  · rintro rfl
    refine ⟨rfl, fun i hi => ?_, ?_⟩
    · change ((ttbr0Base (v.extractLsb' 0 3) s.ttbr0).setWidth 64).getLsbD i = _
      rw [BitVec.getLsbD_setWidth, ttbr0Base_getLsbD, decide_eq_true hi, Bool.true_and]
    · change ((ttbr0Base (v.extractLsb' 0 3) s.ttbr0).setWidth 64).toNat % _ = 0
      rw [BitVec.toNat_setWidth_of_le (by decide), ttbr0Base_mod]
  · rintro rfl
    rfl

/-! ### EAE == 1 (R65, R66) -/

/-- The table of SH0 and SH1 (R24, R32). -/
theorem shareability_values {b : BitVec 2} {q : Shareability} (h : shareability b = some q) :
    (b = 0b00#2 → q = .nonShareable) ∧ (b = 0b10#2 → q = .outerShareable) ∧ (b = 0b11#2 → q = .innerShareable) := by
  refine ⟨?_, ?_, ?_⟩ <;> rintro rfl <;> exact (Option.some.inj h).symm

/-- The table of the ORGN and IRGN fields (R25, R26, R33, R34). -/
theorem cacheability_values (b : BitVec 2) :
    (b = 0b00#2 → cacheability b = .nonCacheable) ∧
    (b = 0b01#2 → cacheability b = .writeBackReadAllocateWriteAllocate) ∧
    (b = 0b10#2 → cacheability b = .writeThroughReadAllocateNoWriteAllocate) ∧
    (b = 0b11#2 → cacheability b = .writeBackReadAllocateNoWriteAllocate) := by
  refine ⟨?_, ?_, ?_, ?_⟩ <;> rintro rfl <;> rfl

/-- The TTBR that A1 selects, by bit number (R28). -/
theorem asidTtbr_eq (v : Word) : asidTtbr v = if v.getLsbD 22 then .ttbr1 else .ttbr0 := by
  rw [← extractLsb'_one_eq v 22]
  rfl

/-- The ASID of a walk in the EAE == 1 format is that of the TTBR that A1 selects (R66). -/
theorem longWalk_asid (s : State) (v va : Word) (x : TtbrNum) (attrs : WalkAttributes) :
    (longWalk s v va x attrs).asid =
      some (if v.getLsbD 22 then (.ttbr1, Config.ttbrAsid .ttbr1 s.ttbr1) else (.ttbr0, Config.ttbrAsid .ttbr0 s.ttbr0)) := by
  rw [longWalk, asidTtbr_eq]
  cases v.getLsbD 22 <;> rfl

theorem longWalk_ttbcr2 (s : State) (v va : Word) (x : TtbrNum) (attrs : WalkAttributes) (he : eae v = true) :
    (longWalk s v va x attrs).ttbcr2 =
      if s.cfg.featAA32HPD = true ∧ v.getLsbD 6 = true then s.ttbcr2 else 0 := by
  rw [longWalk, ttbcr2InUse_eq, ← eae, he]
  simp only [true_and]

theorem longWalk_base (s : State) (v va : Word) (x : TtbrNum) (attrs : WalkAttributes) :
    (longWalk s v va x attrs).base =
      Config.ttbrBase .longDescriptor x (if x = .ttbr0 then v.extractLsb' 0 3 else v.extractLsb' 16 3)
        (if x = .ttbr0 then s.ttbr0 else s.ttbr1) := by
  rw [longWalk, tszField_eq, ttbr_eq]

/-- Settles O43: the walk of an enabled miss is the Long-descriptor one, with the Shareability and cacheability that the
fields of its TTBR name. -/
theorem longFormatWalks : Obligations.LongFormatWalks := by
  intro s sec va v choice rest hv he h30 hmem
  refine (selectTtbr_cases v va).imp id fun ⟨x, hx⟩ => ⟨x, hx, ?_⟩
  dsimp only
  rw [← shField_eq, ← orgnField_eq, ← irgnField_eq]
  intro hd hsh
  have henabled : walkDisabled v x = false := by rw [walkDisabled_eq, if_pos he, hd]
  obtain ⟨q, hq⟩ := Option.ne_none_iff_exists'.1 (mt (shareability_eq_none _).1 hsh)
  have hres : resolve s v va =
      .walk (longWalk s v va x ⟨q, cacheability (orgnField v x), cacheability (irgnField v x)⟩) := by
    rw [resolve_miss s v va x (.inr h30) hmem hx, missThrough_enabled s v va x henabled, walkThrough_long s v va x q he hq]
  obtain ⟨hnon, houter, hinner⟩ := shareability_values hq
  obtain ⟨ho0, ho1, ho2, ho3⟩ := cacheability_values (orgnField v x)
  obtain ⟨hi0, hi1, hi2, hi3⟩ := cacheability_values (irgnField v x)
  exact ⟨_, _, by rw [step_translate, hv, hres]; rfl, rfl, rfl, rfl, longWalk_base s v va x _, rfl, hnon, houter, hinner,
    ho0, ho1, ho2, ho3, hi0, hi1, hi2, hi3, longWalk_asid s v va x _, longWalk_ttbcr2 s v va x _ he⟩

end Sys2Proof.Machine

/-! ## Proofs: the candidates from general knowledge -/

namespace Sys2Proof.Machine

/-! ### The Short-descriptor candidate (R69) -/

/-- A word shifted right by `k` is 0 exactly below 2^k. -/
theorem ushiftRight_eq_zero_iff (va : Word) (k : Nat) : va >>> k = 0 ↔ va.toNat < 2 ^ k := by
  rw [BitVec.toNat_eq, BitVec.toNat_ushiftRight, Nat.shiftRight_eq_div_pow]
  exact Nat.div_eq_zero_iff_lt (Nat.two_pow_pos k)

theorem candidateSelectShort_eq_ttbr0_iff (n : BitVec 3) (va : Word) :
    candidateSelectShort n va = .ttbr0 ↔ va.toNat < 2 ^ (32 - n.toNat) := by
  have hzero : n = 0 → va.toNat < 2 ^ (32 - n.toNat) := by
    rintro rfl
    exact va.isLt
  simp only [candidateSelectShort, ushiftRight_eq_zero_iff, or_iff_right_of_imp hzero, ite_eq_left_iff, reduceCtorEq,
    imp_false, not_not]

theorem candidateTtbr0TableSize_eq (n : BitVec 3) : candidateTtbr0TableSize n = 2 ^ (14 - n.toNat) := by
  rw [candidateTtbr0TableSize, candidateTtbr0Entries, show 14 - n.toNat = 2 + (12 - n.toNat) by omega, pow_add]
  rfl

theorem candidateTtbr1Base_getLsbD (ttbr1 : BitVec 64) (i : Nat) (hi : i < 32) :
    (candidateTtbr1Base ttbr1).getLsbD i = (decide (14 ≤ i) && ttbr1.getLsbD i) := by
  have hhigh : i ≤ 31 := by omega
  rw [candidateTtbr1Base, ttbr0Base_getLsbD]
  simp [hhigh]

/-! ### The Long-descriptor candidate, case by case (R70) -/

theorem candidateRegionSize_pos (tsz : BitVec 3) : 0 < candidateRegionSize tsz :=
  Nat.two_pow_pos _

/-- A size field that is not 0 leaves its TTBR at most half of the address range. -/
theorem candidateRegionSize_le_half (tsz : BitVec 3) (h : tsz ≠ 0) : candidateRegionSize tsz ≤ 2 ^ 31 := by
  have hpos : tsz.toNat ≠ 0 := fun h0 => h (BitVec.eq_of_toNat_eq h0)
  exact Nat.pow_le_pow_right (by decide) (by omega)

section
variable {t0 t1 : BitVec 3} (va : Word)

/-- Case (b): TTBR0 has the low region and TTBR1 the rest. -/
theorem candidateSelectLong_of_t1sz_zero (h0 : t0 ≠ 0) (h1 : t1 = 0) :
    (candidateSelectLong t0 t1 va = .useTtbr0 ↔ va.toNat ≤ candidateRegionSize t0 - 1) ∧
    (candidateSelectLong t0 t1 va = .useTtbr1 ↔ candidateRegionSize t0 - 1 < va.toNat) := by
  have hpos := candidateRegionSize_pos t0
  rw [candidateSelectLong, if_neg (fun h => h0 h.1), if_pos h1]
  split <;> simp only [reduceCtorEq, true_iff, false_iff] <;> omega

/-- Case (c): TTBR1 has the high region and TTBR0 the rest. -/
theorem candidateSelectLong_of_t0sz_zero (h0 : t0 = 0) (h1 : t1 ≠ 0) :
    (candidateSelectLong t0 t1 va = .useTtbr1 ↔ 2 ^ 32 - candidateRegionSize t1 ≤ va.toNat) ∧
    (candidateSelectLong t0 t1 va = .useTtbr0 ↔ va.toNat < 2 ^ 32 - candidateRegionSize t1) := by
  rw [candidateSelectLong, if_neg (fun h => h1 h.2), if_neg h1, if_pos h0]
  split <;> simp only [reduceCtorEq, true_iff, false_iff] <;> omega

/-- Case (d): a region at either end, which do not meet, and a gap between. -/
theorem candidateSelectLong_of_ne_zero (h0 : t0 ≠ 0) (h1 : t1 ≠ 0) :
    (candidateSelectLong t0 t1 va = .useTtbr0 ↔ va.toNat ≤ candidateRegionSize t0 - 1) ∧
    (candidateSelectLong t0 t1 va = .useTtbr1 ↔ 2 ^ 32 - candidateRegionSize t1 ≤ va.toNat) ∧
    (candidateSelectLong t0 t1 va = .noRegion ↔
      candidateRegionSize t0 - 1 < va.toNat ∧ va.toNat < 2 ^ 32 - candidateRegionSize t1) := by
  have hpos := candidateRegionSize_pos t0
  have hlow := candidateRegionSize_le_half t0 h0
  have hhigh := candidateRegionSize_le_half t1 h1
  rw [candidateSelectLong, if_neg (fun h => h0 h.1), if_neg h1, if_neg h0]
  split_ifs <;> simp only [true_iff, false_iff] <;> omega

end

/-- Settles O48: both candidates compare the address with the size of a region, case by case. -/
theorem candidateSelectionSplitsTheRange : Obligations.CandidateSelectionSplitsTheRange := by
  refine ⟨candidateSelectShort_eq_ttbr0_iff, fun n => ⟨candidateTtbr0TableSize_eq n, rfl⟩, rfl, fun n => rfl,
    candidateTtbr1Base_getLsbD, fun t0 t1 va => ⟨fun h0 h1 => ?_, candidateSelectLong_of_t1sz_zero va,
      candidateSelectLong_of_t0sz_zero va, candidateSelectLong_of_ne_zero va⟩⟩
  rw [candidateSelectLong, if_pos ⟨h0, h1⟩]

end Sys2Proof.Machine

/-! ## Proofs: decoding and encoding -/

namespace Sys2Proof

/-! ### Bytes that decode (R87) -/

theorem encodeBytes_length (i : Instr) : (encodeBytes i).length = 4 := by
  unfold encodeBytes bytesOfWord
  cases i.form.isa <;> rfl

/-- Four bytes hold a word exactly when they are the bytes of the word. -/
theorem wordOfBytes_eq_iff (isa : Isa) (b0 b1 b2 b3 : Byte) (w : Word) :
    wordOfBytes isa b0 b1 b2 b3 = w ↔ bytesOfWord isa w = [b0, b1, b2, b3] := by
  constructor
  · rintro rfl
    exact bytesOfWord_wordOfBytes isa b0 b1 b2 b3
  · exact wordOfBytes_bytesOfWord isa w b0 b1 b2 b3

/-- Bytes decode to an instruction exactly when they begin with its encoding. -/
theorem decode_eq_ok (isa : Isa) (bytes : List Byte) (i : Instr) :
    decode isa bytes = .ok i ↔ i.wellFormed = true ∧ i.form.isa = isa ∧ encodeBytes i = bytes.take 4 := by
  match bytes with
  | b0 :: b1 :: b2 :: b3 :: rest =>
    rw [decode, decodeWord_eq_ok, and_left_comm]
    refine and_congr_right fun _ => and_congr_right ?_
    rintro rfl
    exact wordOfBytes_eq_iff i.form.isa b0 b1 b2 b3 (encode i)
  | [] | [_] | [_, _] | [_, _, _] =>
    refine ⟨nofun, fun ⟨_, _, hbytes⟩ => ?_⟩
    have hlength := congrArg List.length hbytes
    simp [encodeBytes_length] at hlength

/-- Settles O17: the encoding of `i` is the first four bytes of itself followed by any others. -/
theorem decodeOfEncodeIsTheInstruction : Obligations.DecodeOfEncodeIsTheInstruction := by
  intro i rest hwf
  rw [decode_eq_ok]
  exact ⟨hwf, rfl, (List.take_left' (encodeBytes_length i)).symm⟩

/-- Settles O18: one direction of `decode_eq_ok`. -/
theorem encodeOfDecodeIsTheBytes : Obligations.EncodeOfDecodeIsTheBytes :=
  fun isa bytes i h => (decode_eq_ok isa bytes i).1 h

/-! ### Words told by their fields (R83) -/

/-- The mask of R83 covers every bit outside [31:28] and [15:12]. -/
theorem word_eq_iff_mask_and_fields (w v : Word) :
    w = v ↔ w &&& 0x0FFF0FFF#32 = v &&& 0x0FFF0FFF#32 ∧ w.extractLsb' 28 4 = v.extractLsb' 28 4 ∧
      w.extractLsb' 12 4 = v.extractLsb' 12 4 := by
  refine ⟨by rintro rfl; exact ⟨rfl, rfl, rfl⟩, ?_⟩
  rintro ⟨hmask, htop, hrt⟩
  apply BitVec.eq_of_getLsbD_eq
  intro i hi
  have hcover : ∀ i < 32, (0x0FFF0FFF#32).getLsbD i = true ∨ 28 ≤ i ∨ 12 ≤ i ∧ i < 16 := by decide
  rcases hcover i hi with hm | hge | ⟨hge, hlt⟩
  · simpa [hm] using congrArg (·.getLsbD i) hmask
  · have hbit := congrArg (·.getLsbD (i - 28)) htop
    simpa [BitVec.getLsbD_extractLsb', show i - 28 < 4 by omega, Nat.add_sub_cancel' hge] using hbit
  · have hbit := congrArg (·.getLsbD (i - 12)) hrt
    simpa [BitVec.getLsbD_extractLsb', show i - 12 < 4 by omega, Nat.add_sub_cancel' hge] using hbit

/-- Every instruction's encoding has its row of the opcode table. -/
theorem encode_tableWord (i : Instr) : Laws.TableWord.Statement i := by
  cases i with
  | mrcTtbcr f t => exact Laws.TableWord.mrcTtbcr f t
  | mcrTtbcr f t => exact Laws.TableWord.mcrTtbcr f t

/-- A word is an instruction's encoding exactly when it has the row's fixed bits, the form's bits [31:28] and the
register. -/
theorem eq_encode_iff (w : Word) (i : Instr) :
    w = encode i ↔ w &&& 0x0FFF0FFF#32 = Laws.TableWord.tableMatch i ∧
      w.extractLsb' 28 4 = i.form.topBits ∧ (w.extractLsb' 12 4).toNat = i.rt.val := by
  obtain ⟨hmask, -⟩ := encode_tableWord i
  obtain ⟨htop, -, hrt, -⟩ := encodeTransfer_fields i.form.topBits i.lBit (Reg.bits i.rt) SysReg.ttbcr
  rw [word_eq_iff_mask_and_fields, hmask, encode, htop, hrt, ← Reg.bits_eq_iff, eq_comm (a := Reg.bits i.rt)]

/-- An A32 word decodes to an A32 instruction exactly when it matches its row of the opcode table. -/
theorem decodeWord_a32_eq_ok (w : Word) (i : Instr) (hisa : i.form.isa = .a32) (hwf : i.wellFormed = true) :
    decodeWord .a32 w = .ok i ↔ w &&& 0x0FFF0FFF#32 = Laws.TableWord.tableMatch i ∧
      w.extractLsb' 28 4 = i.form.topBits ∧ (w.extractLsb' 12 4).toNat = i.rt.val := by
  rw [decodeWord_eq_ok, eq_encode_iff, and_iff_right hisa, and_iff_right hwf]

/-- Settles O19: a word is an instruction's encoding exactly when it matches its row of the opcode table. -/
theorem a32WordsAreToldByMaskAndMatch : Obligations.A32WordsAreToldByMaskAndMatch :=
  fun w c t => ⟨decodeWord_a32_eq_ok w (.mrcTtbcr (.a32 c) t) rfl rfl,
    decodeWord_a32_eq_ok w (.mcrTtbcr (.a32 c) t) rfl rfl⟩

/-! ### Halfwords told by their fields (R84) -/

/-- Vectors put together are equal exactly when their parts are. -/
theorem append_eq_append_iff {m n : Nat} (a c : BitVec m) (b d : BitVec n) : a ++ b = c ++ d ↔ a = c ∧ b = d := by
  refine ⟨fun h => ⟨?_, ?_⟩, by rintro ⟨rfl, rfl⟩; rfl⟩
  · simpa only [BitVec.extractLsb'_append_eq_left] using congrArg (BitVec.extractLsb' n m) h
  · simpa only [BitVec.extractLsb'_append_eq_right] using congrArg (BitVec.extractLsb' 0 n) h

/-- A T32 second halfword is a register over twelve fixed bits exactly when its two fields say so. -/
theorem halfword_eq_rt_append_iff (h : BitVec 16) (t : Reg) (low : BitVec 12) :
    h = (Reg.bits t ++ low : BitVec 16) ↔ h.extractLsb' 0 12 = low ∧ (h.extractLsb' 12 4).toNat = t.val := by
  have hsplit : (h.extractLsb' 12 4 ++ h.extractLsb' 0 12 : BitVec 16) = h := BitVec.extractLsb'_append_extractLsb'
  rw [← Reg.bits_eq_iff, eq_comm (a := Reg.bits t), and_comm, ← append_eq_append_iff, hsplit]

/-- The fixed first halfword of each T32 access (R84). -/
def Instr.firstHalfword : Instr → BitVec 16
  | .mrcTtbcr _ _ => 0xEE12#16
  | .mcrTtbcr _ _ => 0xEE02#16

theorem encode_t32 (i : Instr) (hf : i.form = .t32) :
    encode i = i.firstHalfword ++ (Reg.bits i.rt ++ 0xF50#12 : BitVec 16) := by
  cases i with
  | mrcTtbcr f t =>
    obtain rfl : f = .t32 := hf
    revert t
    decide
  | mcrTtbcr f t =>
    obtain rfl : f = .t32 := hf
    revert t
    decide

theorem wordOfBytes_t32 (b0 b1 b2 b3 : Byte) :
    wordOfBytes .t32 b0 b1 b2 b3 = (b1 ++ b0 : BitVec 16) ++ (b3 ++ b2 : BitVec 16) :=
  BitVec.append_assoc

theorem wellFormed_t32_iff (i : Instr) (hf : i.form = .t32) : i.wellFormed = true ↔ i.rt ≠ 13 := by
  rw [Instr.wellFormed, hf]
  exact bne_iff_ne

/-- Four bytes decode to a T32 instruction exactly when the two halfwords are those of its encoding. -/
theorem decode_t32_eq_ok (b0 b1 b2 b3 : Byte) (i : Instr) (hf : i.form = .t32) :
    decode .t32 [b0, b1, b2, b3] = .ok i ↔ b1 ++ b0 = i.firstHalfword ∧ (b3 ++ b2).extractLsb' 0 12 = 0xF50#12 ∧
      ((b3 ++ b2).extractLsb' 12 4).toNat = i.rt.val ∧ i.rt ≠ 13 := by
  have hisa : i.form.isa = .t32 := by rw [hf]; rfl
  have hword : wordOfBytes .t32 b0 b1 b2 b3 = encode i ↔
      b1 ++ b0 = i.firstHalfword ∧ (b3 ++ b2).extractLsb' 0 12 = 0xF50#12 ∧
        ((b3 ++ b2).extractLsb' 12 4).toNat = i.rt.val := by
    rw [wordOfBytes_t32, encode_t32 i hf, append_eq_append_iff, halfword_eq_rt_append_iff]
  rw [decode, decodeWord_eq_ok, and_iff_right hisa, wellFormed_t32_iff i hf, hword, and_comm, and_assoc, and_assoc]

/-- Settles O20: the two halfwords are those of the encoding, and the register is one that T32 admits. -/
theorem t32HalfwordsAreTold : Obligations.T32HalfwordsAreTold :=
  fun b0 b1 b2 b3 t => ⟨decode_t32_eq_ok b0 b1 b2 b3 (.mrcTtbcr .t32 t) rfl,
    decode_t32_eq_ok b0 b1 b2 b3 (.mcrTtbcr .t32 t) rfl⟩

/-! ### Transfers that are refused (R86) -/

section
variable (f : Form) (top : BitVec 4) (l : BitVec 1) (t : BitVec 4) (r : SysReg)

/-- A transfer with a `cond` field other than 0b1111 is decoded under some condition (R83). -/
theorem decodeWord_a32_encodeTransfer (htop : top ≠ 0b1111#4) :
    ∃ c, decodeWord .a32 (encodeTransfer top l t r) = decodeTransfer (.a32 c) (encodeTransfer top l t r) := by
  obtain ⟨h28, -⟩ := encodeTransfer_fields top l t r
  have hcond : Cond.ofBits top ≠ none := by rwa [ne_eq, Cond.ofBits_eq_none]
  obtain ⟨c, hc⟩ := Option.ne_none_iff_exists'.1 hcond
  refine ⟨c, ?_⟩
  simp only [decodeWord, h28, hc]

theorem decodeWord_t32_encodeTransfer :
    decodeWord .t32 (encodeTransfer 0b1110#4 l t r) = decodeTransfer .t32 (encodeTransfer 0b1110#4 l t r) := by
  obtain ⟨h28, -⟩ := encodeTransfer_fields 0b1110#4 l t r
  exact if_pos h28

theorem decodeTransfer_other (hr : r ≠ SysReg.ttbcr) :
    decodeTransfer f (encodeTransfer top l t r) = .error (.otherSystemRegister r) := by
  obtain ⟨-, h24, -, hreg, h4, -⟩ := encodeTransfer_fields top l t r
  simp [decodeTransfer, h24, h4, hreg, hr]

theorem decodeTransfer_rt15 (ht : Reg.ofBits t = none) :
    decodeTransfer f (encodeTransfer top l t SysReg.ttbcr) = .error .rt15 := by
  obtain ⟨-, h24, h12, hreg, h4, -⟩ := encodeTransfer_fields top l t SysReg.ttbcr
  simp [decodeTransfer, h24, h4, hreg, h12, ht]

theorem decodeTransfer_not_admitted (u : Reg) (ht : Reg.ofBits t = some u) (hu : f.admits u = false) :
    decodeTransfer f (encodeTransfer top l t SysReg.ttbcr) = .error .rt13InT32 := by
  obtain ⟨-, h24, h12, hreg, h4, -⟩ := encodeTransfer_fields top l t SysReg.ttbcr
  simp [decodeTransfer, h24, h4, hreg, h12, ht, hu]

end

/-- Settles O22: the register is tested before `Rt`, under every condition. -/
theorem otherSystemRegistersAreRefused : Obligations.OtherSystemRegistersAreRefused := by
  intro t l r hr
  refine ⟨fun top htop => ?_, ?_⟩
  · obtain ⟨c, hc⟩ := decodeWord_a32_encodeTransfer top l t r htop
    rw [hc, decodeTransfer_other (.a32 c) top l t r hr]
  · rw [decodeWord_t32_encodeTransfer, decodeTransfer_other .t32 _ l t r hr]

/-- Settles O21: 15 names no register, and T32 does not admit 13. -/
theorem restrictedRegistersAreRefused : Obligations.RestrictedRegistersAreRefused := by
  have h15 : Reg.ofBits 15 = none := by decide
  have h13 : Reg.ofBits 13 = some 13 := by decide
  refine ⟨fun top l htop => ?_, fun l => ?_, fun l => ?_, fun s => ⟨?_, ?_⟩⟩
  · obtain ⟨c, hc⟩ := decodeWord_a32_encodeTransfer top l 15 SysReg.ttbcr htop
    rw [hc, decodeTransfer_rt15 _ _ _ _ h15]
  · rw [decodeWord_t32_encodeTransfer, decodeTransfer_rt15 _ _ _ _ h15]
  · rw [decodeWord_t32_encodeTransfer, decodeTransfer_not_admitted .t32 _ l 13 13 h13 rfl]
  · exact Machine.exec_of_ill_formed (.mrcTtbcr .t32 13) s rfl
  · exact Machine.exec_of_ill_formed (.mcrTtbcr .t32 13) s rfl

end Sys2Proof

/-! ## Proofs: the step and the instruction it fetches -/

namespace Sys2Proof.Machine

/-- Settles O24: each of the three ways of fetching is a fetch of the bytes decoded. -/
theorem stepRunsTheDecodedInstruction : Obligations.StepRunsTheDecodedInstruction := by
  intro s bytes i hd
  refine ⟨fun hf hs => ?_, fun rest hf hs => ?_, fun sec first second rest u hs hf => ?_⟩
  · have hplain : fetchPlain s = .next (s, bytes) := (fetchPlain_eq_next _ _ _).2 ⟨rfl, hf⟩
    exact step_of_fetches_decode (.inl ⟨hs, hplain⟩) hd
  · have hplain : fetchPlain { s with inputs := rest } = .next ({ s with inputs := rest }, bytes) :=
      (fetchPlain_eq_next _ _ _).2 ⟨rfl, hf⟩
    exact step_of_fetches_decode (.inr (.inl ⟨rest, hs, hplain⟩)) hd
  · exact step_of_fetchTranslated_next hs u bytes i hf hd

end Sys2Proof.Machine

/-! ## Proofs: the two accesses -/

namespace Sys2Proof.Machine

/-! ### An access as its decision carried out (R100, R101) -/

/-- The state that an access which reaches a storage leaves. -/
def accessCompleted (i : Instr) (s : State) (b : Bank) : State :=
  match i with
  | .mrcTtbcr _ t => (s.writeReg t (s.readBank b)).advancePc
  | .mcrTtbcr _ t => (s.writeBank b (s.readReg t)).advancePc

/-- The answer of an access, given what the pseudocode decides. -/
def accessAnswer (i : Instr) (s : State) (r : Route) : Answer :=
  match r with
  | .raise e => raise e
  | .access b => .next (accessCompleted i s b)

/-- An access answers what the pseudocode decides. -/
theorem exec_eq_accessAnswer {i : Instr} {s : State} (h : IsAccess i s) :
    exec i s = accessAnswer i s (routeAccess (direction i) s.cfg s.env) := by
  rw [exec_of_access i s h]
  cases routeAccess (direction i) s.cfg s.env with
  | raise e => rfl
  | access b => cases i <;> rfl

theorem exec_of_undefinedAccess {i : Instr} {s : State} (h : IsAccess i s) (hu : UndefinedAccess (direction i) s) :
    exec i s = .fault .undefined := by
  rw [exec_eq_accessAnswer h, (routeAccess_undefined_iff _ s).2 hu]
  rfl

theorem exec_of_reaches {i : Instr} {s : State} {b : Bank} (h : IsAccess i s) (hr : Reaches s b)
    (hu : ¬ UndefinedAccess (direction i) s) (h32 : ¬ TrappedToAArch32 (direction i) s)
    (h64 : ¬ TrappedToAArch64 (direction i) s) : exec i s = .next (accessCompleted i s b) := by
  rw [exec_eq_accessAnswer h, routeAccess_of_reaches _ s b hr hu h32 h64]
  rfl

theorem exec_eq_next_iff {i : Instr} {s u : State} (h : IsAccess i s) :
    exec i s = .next u ↔
      ∃ b, routeAccess (direction i) s.cfg s.env = .access b ∧ u = accessCompleted i s b := by
  rw [exec_eq_accessAnswer h]
  cases routeAccess (direction i) s.cfg s.env with
  | raise e => cases e <;> simp [accessAnswer, raise]
  | access b => simp [accessAnswer, eq_comm]

/-- An instruction that answers a next state has failed its condition, or is an access that reached a storage. -/
theorem exec_next_completed {i : Instr} {s u : State} (h : exec i s = .next u) :
    u = s.advancePc ∨ ∃ b, Reaches s b ∧ u = accessCompleted i s b := by
  rcases exec_next_cases i s u h with hu | ⟨f, t, b, rfl, hb, hu⟩ | ⟨f, t, b, rfl, hb, -, hu⟩
  · exact .inl hu
  · exact .inr ⟨b, hb, hu⟩
  · exact .inr ⟨b, hb, hu⟩

/-! ### What a completed access leaves alone (R106) -/

section
variable (i : Instr) (s : State) (b c : Bank) (f : Form) (t r : Reg)

/-- The fields that neither access writes. -/
theorem accessCompleted_frame :
    accessCompleted i s b =
      { s with pc := s.pc + 4, regs := (accessCompleted i s b).regs, ttbcr := (accessCompleted i s b).ttbcr,
               ttbcrS := (accessCompleted i s b).ttbcrS, ttbcrNS := (accessCompleted i s b).ttbcrNS } := by
  cases i with
  | mrcTtbcr f t => rfl
  | mcrTtbcr f t => cases b <;> rfl

@[simp] theorem accessCompleted_cfg : (accessCompleted i s b).cfg = s.cfg := by
  rw [accessCompleted_frame]

@[simp] theorem accessCompleted_env : (accessCompleted i s b).env = s.env := by
  rw [accessCompleted_frame]

theorem accessCompleted_readByte (a : Word) : (accessCompleted i s b).readByte a = s.readByte a := by
  rw [accessCompleted_frame]
  rfl

@[simp] theorem accessCompleted_mrc_readReg_same :
    (accessCompleted (.mrcTtbcr f t) s b).readReg t = s.readBank b := by
  simp [accessCompleted]

theorem accessCompleted_mrc_readReg_other (h : r ≠ t) :
    (accessCompleted (.mrcTtbcr f t) s b).readReg r = s.readReg r := by
  simp [accessCompleted, readReg_writeReg_other, h]

@[simp] theorem accessCompleted_mrc_bank : (accessCompleted (.mrcTtbcr f t) s b).bank c = s.bank c := by
  simp [accessCompleted]

@[simp] theorem accessCompleted_mcr_readReg : (accessCompleted (.mcrTtbcr f t) s b).readReg r = s.readReg r := by
  simp [accessCompleted, State.writeBank]

@[simp] theorem accessCompleted_mcr_bank_same :
    (accessCompleted (.mcrTtbcr f t) s b).bank b = (s.bank b).write (s.readReg t) := by
  simp [accessCompleted, State.writeBank]

theorem accessCompleted_mcr_bank_other (h : c ≠ b) : (accessCompleted (.mcrTtbcr f t) s b).bank c = s.bank c := by
  simp [accessCompleted, State.writeBank, bank_setBank_other, h]

end

/-- Settles O7: EL0 is one of the conditions of R121, and an access has one answer. -/
theorem accessesAreUndefinedAtEl0 : Obligations.AccessesAreUndefinedAtEl0 := by
  intro i s h hel
  have hexec : exec i s = .fault .undefined := exec_of_undefinedAccess h (.inr (.inl hel))
  exact ⟨hexec, by simp [hexec], by simp [hexec]⟩

/-! ### The pseudocode, branch by branch -/

theorem mappedBank_eq (cfg : Cfg) (env : Env) :
    mappedBank cfg env =
      if cfg.haveEL3 = true ∧ cfg.featAA32EL3 = true ∧ env.el3UsesAArch32 = true then .ttbcrNS else .ttbcr := by
  simp [mappedBank, el3IsAArch32, and_assoc]

theorem routeAtEl1_eq (d : Direction) (cfg : Cfg) (env : Env) :
    routeAtEl1 d cfg env =
      if env.el2Enabled = true ∧ cfg.featAA64EL2 = true ∧ env.el2UsesAArch32 = false ∧ env.hstrEl2T2 = true then
        .raise (.aarch64SystemAccessTrapToEL2 0x03)
      else if env.el2Enabled = true ∧ cfg.featAA32EL2 = true ∧ env.el2UsesAArch32 = true ∧ env.hstrT2 = true then
        .raise (.hypTrap 0x03)
      else if env.el2Enabled = true ∧ cfg.featAA64EL2 = true ∧ env.el2UsesAArch32 = false ∧ env.hcrEl2Control d = true then
        .raise (.aarch64SystemAccessTrapToEL2 0x03)
      else if env.el2Enabled = true ∧ cfg.featAA32EL2 = true ∧ env.el2UsesAArch32 = true ∧ env.hcrControl d = true then
        .raise (.hypTrap 0x03)
      else .access (mappedBank cfg env) := by
  simp [routeAtEl1, trapA64, trapA32, and_assoc]

/-- The EL3 branch, with the Secure storage named before the Non-secure one as in R100 and R101. -/
theorem routeAtEl3_eq (d : Direction) (env : Env) :
    routeAtEl3 d env =
      if d = .write ∧ env.scrNS = false ∧ env.cp15SDisable = true then .raise .undefined
      else if d = .write ∧ env.scrNS = false ∧ env.cp15SDisable2 = true then .raise .undefined
      else if env.scrNS = false then .access .ttbcrS
      else .access .ttbcrNS := by
  cases hn : env.scrNS <;> simp [routeAtEl3, hn]

/-- The decision as one chain of tests on the Exception level. -/
theorem routeAccess_eq (d : Direction) (cfg : Cfg) (env : Env) :
    routeAccess d cfg env =
      if cfg.featAA32EL1 = false then .raise .undefined
      else if env.el = .el0 then .raise .undefined
      else if env.el = .el1 then routeAtEl1 d cfg env
      else if env.el = .el2 then .access (mappedBank cfg env)
      else routeAtEl3 d env := by
  cases hf : cfg.featAA32EL1 with
  | false => simp [routeAccess, hf]
  | true => cases he : env.el <;> simp [routeAccess, hf, he]

/-- Settles O1: the word is the encoding, and `accessAnswer` carries out the decision at the end of each branch. -/
theorem mrcFollowsTheReadPseudocode : Obligations.MrcFollowsTheReadPseudocode := by
  refine ⟨fun c t => (decodeWord_eq_ok _ _ _).2 ⟨rfl, rfl, rfl⟩, fun f t s h => ⟨s.pc + 4, ?_⟩⟩
  rw [exec_eq_accessAnswer h, direction, routeAccess_eq, routeAtEl1_eq, mappedBank_eq, routeAtEl3_eq]
  simp only [apply_ite (accessAnswer _ s), apply_ite Route.access, reduceCtorEq, false_and, if_false]
  rfl

/-- Settles O2: as for the read, with the lock-out tests of the EL3 branch in place. -/
theorem mcrFollowsTheWritePseudocode : Obligations.McrFollowsTheWritePseudocode := by
  refine ⟨fun c t => (decodeWord_eq_ok _ _ _).2 ⟨rfl, rfl, rfl⟩, fun f t s h => ⟨s.pc + 4, ?_⟩⟩
  rw [exec_eq_accessAnswer h, direction, routeAccess_eq, routeAtEl1_eq, mappedBank_eq, routeAtEl3_eq]
  simp only [apply_ite (accessAnswer _ s), apply_ite Route.access, true_and]
  rfl

/-! ### Completion on the storage of the table (R103) -/

theorem Reaches.el_ne_el0 {s : State} {b : Bank} (h : Reaches s b) : s.env.el ≠ .el0 := by
  rcases h with ⟨he, -⟩ | ⟨he, -⟩ | ⟨he, -⟩ | ⟨he, -⟩ | ⟨he, -⟩ | ⟨he, -⟩ <;> simp [he]

/-- Above EL0 and with the register present, the lock-out is the one way to be UNDEFINED (R121). -/
theorem Reaches.undefinedAccess_iff {s : State} {b : Bank} (h : Reaches s b) (hfeat : s.cfg.featAA32EL1 = true)
    (d : Direction) : UndefinedAccess d s ↔ LockedOut d s := by
  simp [UndefinedAccess, hfeat, h.el_ne_el0]

/-- Settles O3: where the table names a storage, an access that no rule stops completes on it. -/
theorem accessesCompleteOnTheTabulatedInstance : Obligations.AccessesCompleteOnTheTabulatedInstance := by
  intro f t s hadmits hcond
  have hread : IsAccess (.mrcTtbcr f t) s := ⟨hadmits, hcond⟩
  have hwrite : IsAccess (.mcrTtbcr f t) s := ⟨hadmits, hcond⟩
  refine ⟨fun b hb hfeat => ⟨fun h64 h32 => ?_, fun h64 h32 hlock => ?_⟩, fun hel => ?_⟩
  · have hnotLocked : ¬ LockedOut .read s := fun hlock => nomatch hlock.1
    exact exec_of_reaches hread hb (mt (hb.undefinedAccess_iff hfeat _).1 hnotLocked) h32 h64
  · exact exec_of_reaches hwrite hb (mt (hb.undefinedAccess_iff hfeat _).1 hlock) h32 h64
  · exact ⟨exec_of_undefinedAccess hread (.inr (.inl hel)), exec_of_undefinedAccess hwrite (.inr (.inl hel)),
      fun b hb => hb.el_ne_el0 hel⟩

/-! ### Frame and noninterference (R106) -/

/-- Settles O4: a next state is that of a failed condition, or of a completed access, which has the frame of R106. -/
theorem accessesChangeNothingElse : Obligations.AccessesChangeNothingElse := by
  intro i s u h
  rcases exec_next_completed h with rfl | ⟨b, hb, rfl⟩
  · simp [State.readByte]
  · have hread : ∀ f t, i = .mrcTtbcr f t → (∀ r, r ≠ t → (accessCompleted i s b).readReg r = s.readReg r) ∧
        ∀ c, (accessCompleted i s b).bank c = s.bank c := by
      rintro f t rfl
      exact ⟨accessCompleted_mrc_readReg_other s b f t, fun c => accessCompleted_mrc_bank s b c f t⟩
    have hwrite : ∀ f t, i = .mcrTtbcr f t → (∀ r, (accessCompleted i s b).readReg r = s.readReg r) ∧
        ∀ c, ¬ Reaches s c → (accessCompleted i s b).bank c = s.bank c := by
      rintro f t rfl
      exact ⟨accessCompleted_mcr_readReg s b f t,
        fun c hc => accessCompleted_mcr_bank_other s b c f t fun hcb => hc (hcb ▸ hb)⟩
    refine ⟨?_, ?_, ?_, ?_, ?_, ?_, ?_, ?_, ?_, ?_, ?_, ?_, ?_, accessCompleted_readByte i s b, hread, hwrite⟩ <;>
      rw [accessCompleted_frame]

/-- Settles O5: the pseudocode decides on `Cfg` and `Env` alone, and a completed access moves one value. -/
theorem accessesReadNothingElse : Obligations.AccessesReadNothingElse := by
  intro i s v hs hv hcfg henv hreg hbank
  have hroute : routeAccess (direction i) v.cfg v.env = routeAccess (direction i) s.cfg s.env := by rw [hcfg, henv]
  refine ⟨fun r hr => ?_, fun u hu => ?_⟩
  · rw [exec_fault_iff i v hv, hroute]
    exact (exec_fault_iff i s hs r).1 hr
  · obtain ⟨b, hb, rfl⟩ := (exec_eq_next_iff hs).1 hu
    have hreach := routeAccess_reaches _ s b hb
    refine ⟨_, (exec_eq_next_iff hv).2 ⟨b, hroute.trans hb, rfl⟩, ?_, fun c hc => ?_⟩
    · cases i with
      | mrcTtbcr f t => simp [Instr.rt, State.readBank, hcfg, hbank b hreach]
      | mcrTtbcr f t => simpa [Instr.rt] using hreg
    · obtain rfl := Reaches.unique s c b hc hreach
      cases i with
      | mrcTtbcr f t => simpa using hbank c hc
      | mcrTtbcr f t => simpa [Instr.rt] using hreg

/-! ### The lock-out (R109) -/

/-- An access and a change of `Env` that leaves the pseudocode's decision alone commute. -/
theorem exec_withEnv (i : Instr) (s : State) (e : Env)
    (hroute : routeAccess (direction i) s.cfg e = routeAccess (direction i) s.cfg s.env) :
    exec i { s with env := e } = Answer.mapNext (fun u => { u with env := e }) (exec i s) := by
  cases hw : i.wellFormed with
  | false => simp [exec_of_ill_formed, hw]
  | true =>
    have hcond : conditionPassed i.form { s with env := e } = conditionPassed i.form s := by
      cases i.form <;> rfl
    cases hc : conditionPassed i.form s with
    | false =>
      rw [exec_of_failed i s hw hc, exec_of_failed i _ hw (hcond.trans hc)]
      rfl
    | true =>
      have hs : IsAccess i s := ⟨hw, hc⟩
      have hse : IsAccess i { s with env := e } := ⟨hw, hcond.trans hc⟩
      rw [exec_eq_accessAnswer hs, exec_eq_accessAnswer hse, hroute]
      cases routeAccess (direction i) s.cfg s.env with
      | raise x => exact (Answer.mapNext_raise _ x).symm
      | access b => cases i <;> cases b <;> rfl

theorem exec_next_env {i : Instr} {s u : State} (h : exec i s = .next u) : u.env = s.env := by
  rcases exec_next_completed h with rfl | ⟨b, -, rfl⟩
  · rfl
  · exact accessCompleted_env i s b

/-- The environment with other levels of the two lock-out signals (R47). -/
def Env.withSignals (env : Env) (d d2 : Bool) : Env :=
  { env with cp15SDisable := d, cp15SDisable2 := d2 }

/-- The signals are tested on a write at EL3 with SCR.NS 0 alone. -/
theorem routeAccess_withSignals (dir : Direction) (cfg : Cfg) (env : Env) (d d2 : Bool)
    (h : dir = .read ∨ env.el ≠ .el3 ∨ env.scrNS = true) :
    routeAccess dir cfg (env.withSignals d d2) = routeAccess dir cfg env := by
  have hel : (env.withSignals d d2).el = env.el := rfl
  have hEl1 : routeAtEl1 dir cfg (env.withSignals d d2) = routeAtEl1 dir cfg env := by cases dir <;> rfl
  have hmapped : mappedBank cfg (env.withSignals d d2) = mappedBank cfg env := rfl
  rw [routeAccess_eq, routeAccess_eq, hel, hEl1, hmapped]
  cases he : env.el with
  | el0 | el1 | el2 => simp
  | el3 =>
    have hEl3 : routeAtEl3 dir (env.withSignals d d2) = routeAtEl3 dir env := by
      rcases h with rfl | hne | hns
      · rfl
      · exact absurd he hne
      · simp [routeAtEl3, Env.withSignals, hns]
    rw [hEl3]

/-- Settles O13: the lock-out is a condition of R121, and elsewhere the pseudocode does not test the signals. -/
theorem secureWriteLockout : Obligations.SecureWriteLockout := by
  refine ⟨fun f t s h hel hns hsignal => ?_, fun i s d d2 hcase => ?_⟩
  · exact exec_of_undefinedAccess h (.inr (.inr ⟨rfl, hel, hns, hsignal⟩))
  · have hexec := exec_withEnv i s (s.env.withSignals d d2) (routeAccess_withSignals _ s.cfg s.env d d2 hcase)
    refine ⟨fun u hu => ?_, fun r hr => ?_⟩
    · rw [hu] at hexec
      rw [exec_next_env hu]
      exact hexec
    · rw [hr] at hexec
      exact hexec

/-! ### Reading back a write (R40, R105) -/

theorem isHardwired_iff (cfg : Cfg) (v : Word) (i : Nat) :
    IsHardwired cfg v i ↔ (if eae v then cfg.res0Long else cfg.res0Short).getLsbD i = true := by
  cases h : eae v <;> simp [IsHardwired, h]

/-- A stored bit reads 0 at a hardwired RES0 position, and as stored elsewhere. -/
theorem readValue_getLsbD_iff (cfg : Cfg) (v : Word) (i : Nat) (hi : i < 32) :
    (readValue cfg v).getLsbD i = true ↔ v.getLsbD i = true ∧ ¬ (IsRes0 cfg v i ∧ IsHardwired cfg v i) := by
  rw [readValue_getLsbD cfg v i hi, ← res0Mask_getLsbD cfg v i hi, isHardwired_iff, Bool.and_eq_true, Bool.not_eq_true',
    ← Bool.not_eq_true, Bool.and_eq_true]

/-- A read that follows a completed write sees the value written. -/
theorem readReg_of_read_after_write {f g : Form} {t r : Reg} {s w : State} {b : Bank}
    (hb : routeAccess .write s.cfg s.env = .access b) (h : IsAccess (.mrcTtbcr g r) (accessCompleted (.mcrTtbcr f t) s b))
    (hw : exec (.mrcTtbcr g r) (accessCompleted (.mcrTtbcr f t) s b) = .next w) :
    w.readReg r = readValue s.cfg (s.readReg t) := by
  obtain ⟨c, hc, rfl⟩ := (exec_eq_next_iff h).1 hw
  rw [accessCompleted_cfg, accessCompleted_env] at hc
  obtain rfl := Reaches.unique s c b (routeAccess_reaches _ s c hc) (routeAccess_reaches _ s b hb)
  simp [State.readBank]

/-- Settles O14: the read returns `readValue` of the value written, and the decision does not depend on `R[t]`. -/
theorem readReturnsTheWrittenBits : Obligations.ReadReturnsTheWrittenBits := by
  intro f g t r s u h hu
  obtain ⟨b, hb, rfl⟩ := (exec_eq_next_iff h).1 hu
  refine ⟨fun w hread hw i hi => ?_, fun x => ?_⟩
  · rw [readReg_of_read_after_write hb hread hw]
    have hbit := readValue_getLsbD_iff s.cfg (s.readReg t) i hi
    refine ⟨fun hhard => ?_, fun hsoft => ?_⟩
    · rw [← Bool.not_eq_true, hbit]
      exact fun hset => hset.2 hhard
    · rw [Bool.eq_iff_iff, hbit]
      exact and_iff_left hsoft
  · have hcond : conditionPassed f (s.writeReg t x) = conditionPassed f s := by cases f <;> rfl
    have hx : IsAccess (.mcrTtbcr f t) (s.writeReg t x) := ⟨h.1, hcond.trans h.2⟩
    exact ⟨_, (exec_eq_next_iff hx).2 ⟨b, hb, rfl⟩⟩

/-! ### The storage reached exists (D2, R11) -/

theorem State.Consistent.hasBank_ttbcr {s : State} (hc : s.Consistent) (h3 : ¬ El3IsAArch32 s) :
    hasBank s.cfg .ttbcr = true := by
  cases hhave : s.cfg.haveEL3 with
  | false => simp [hasBank, hhave]
  | true =>
    have huses : s.env.el3UsesAArch32 = false := by
      rw [← Bool.not_eq_true]
      exact fun huses => h3 ⟨hhave, (hc.el3AArch32 huses).2, huses⟩
    simp [hasBank, hc.el3AArch64 hhave huses]

/-- An access at EL3 is one of an EL3 that is using AArch32. -/
theorem State.Consistent.featAA32EL3_of_el3 {s : State} (hc : s.Consistent) (hel : s.env.el = .el3) :
    s.cfg.featAA32EL3 = true :=
  (hc.el3AArch32 (hc.atEl3 hel)).2

/-- Settles O16: the six rows of R103; `TTBCR` is that of an EL3 not using AArch32, or of no EL3. -/
theorem theInstanceReachedExists : Obligations.TheInstanceReachedExists := by
  intro s b hc h
  rcases h with ⟨-, h3, rfl⟩ | ⟨-, h3, rfl⟩ | ⟨-, h3, rfl⟩ | ⟨-, h3, rfl⟩ | ⟨hel, -, rfl⟩ | ⟨hel, -, rfl⟩
  · exact h3.2.1
  · exact hc.hasBank_ttbcr h3
  · exact h3.2.1
  · exact hc.hasBank_ttbcr h3
  · exact hc.featAA32EL3_of_el3 hel
  · exact hc.featAA32EL3_of_el3 hel

end Sys2Proof.Machine


/-! ## Proofs: the outcomes of an access, and what stays out of its reach -/

namespace Sys2Proof.Machine

/-! ### The exceptional outcomes (R120 to R123) -/

theorem raise_injective : Function.Injective raise := by
  intro e e' h
  cases e <;> cases e' <;> simp_all [raise]

theorem raise_ne_next (e : Exceptional) (u : State) : raise e ≠ .next u := by
  cases e <;> simp [raise]

/-- An access raises an outcome exactly when the pseudocode decides it. -/
theorem exec_eq_raise_iff {i : Instr} {s : State} (h : IsAccess i s) (e : Exceptional) :
    exec i s = raise e ↔ routeAccess (direction i) s.cfg s.env = .raise e := by
  rw [exec_eq_accessAnswer h]
  cases routeAccess (direction i) s.cfg s.env with
  | raise e' => simpa [accessAnswer] using raise_injective.eq_iff
  | access b => simpa [accessAnswer] using (raise_ne_next e _).symm

/-- Settles O9: UNDEFINED is raised exactly where the pseudocode decides it, which is under the conditions of R121. -/
theorem undefinedExactlyWhen : Obligations.UndefinedExactlyWhen := fun i s h =>
  (exec_eq_raise_iff h .undefined).trans (routeAccess_undefined_iff (direction i) s)

/-- Settles O10: the Hyp trap is raised exactly where the pseudocode decides it, which is under the conditions of R122. -/
theorem hypTrapExactlyWhen : Obligations.HypTrapExactlyWhen := fun i s code h =>
  (exec_eq_raise_iff h (.hypTrap code)).trans (routeAccess_hypTrap_iff (direction i) s code)

/-- Settles O11: the trap is raised exactly where the pseudocode decides it, which is under the conditions of R123. -/
theorem aArch64TrapExactlyWhen : Obligations.AArch64TrapExactlyWhen := fun i s code h =>
  (exec_eq_raise_iff h (.aarch64SystemAccessTrapToEL2 code)).trans (routeAccess_aarch64Trap_iff (direction i) s code)

/-! ### One outcome for each access (R126) -/

/-- An access completes exactly when none of the three rules raises an outcome. -/
theorem safe_exec_iff {i : Instr} {s : State} (h : IsAccess i s) :
    Safe (exec i s) ↔
      ¬ UndefinedAccess (direction i) s ∧ ¬ TrappedToAArch32 (direction i) s ∧ ¬ TrappedToAArch64 (direction i) s := by
  rcases exec_access_cases i s h with ⟨u, hexec, hnone⟩ | ⟨hexec, hu⟩ | ⟨hexec, h32⟩ | ⟨hexec, h64⟩
  · exact iff_of_true ⟨u, hexec⟩ hnone
  · simp [Safe, hexec, hu]
  · simp [Safe, hexec, h32]
  · simp [Safe, hexec, h64]

/-- Settles O12: each condition determines the answer, so no two hold together, and no other answer is left. -/
theorem anAccessHasOneOutcome : Obligations.AnAccessHasOneOutcome := by
  intro i s h
  have hundef : UndefinedAccess (direction i) s → exec i s = .fault .undefined := (undefinedExactlyWhen i s h).2
  have htrap32 : TrappedToAArch32 (direction i) s → exec i s = .fault (.hypTrap 0x03) := fun h32 =>
    (hypTrapExactlyWhen i s _ h).2 ⟨rfl, h32⟩
  have htrap64 : TrappedToAArch64 (direction i) s → exec i s = .fault (.aarch64SystemAccessTrapToEL2 0x03) := fun h64 =>
    (aArch64TrapExactlyWhen i s _ h).2 ⟨rfl, h64⟩
  refine ⟨safe_exec_iff h, fun ⟨hu, h32⟩ => ?_, fun ⟨hu, h64⟩ => ?_, fun ⟨h32, h64⟩ => ?_, fun va x => ?_, fun r => ?_⟩
  · cases (hundef hu).symm.trans (htrap32 h32)
  · cases (hundef hu).symm.trans (htrap64 h64)
  · cases (htrap32 h32).symm.trans (htrap64 h64)
  all_goals
    rcases exec_access_cases i s h with ⟨u, hexec, -⟩ | ⟨hexec, -⟩ | ⟨hexec, -⟩ | ⟨hexec, -⟩ <;> simp [hexec]

/-! ### A storage that the table does not name is neither changed nor learnt (R103, R130) -/

/-- A completed access leaves every storage but the one it reaches. -/
theorem accessCompleted_bank_other {i : Instr} {s : State} {b c : Bank} (h : c ≠ b) :
    (accessCompleted i s b).bank c = s.bank c := by
  cases i with
  | mrcTtbcr f t => exact accessCompleted_mrc_bank s b c f t
  | mcrTtbcr f t => exact accessCompleted_mcr_bank_other s b c f t h

theorem readBank_setBank_other {s : State} {b c : Bank} (x : Ttbcr) (h : b ≠ c) :
    (s.setBank c x).readBank b = s.readBank b := by
  simp [State.readBank, bank_setBank_other, h]

/-- Replacements of two storages commute. -/
theorem setBank_comm {s : State} {b c : Bank} (x y : Ttbcr) (h : b ≠ c) :
    (s.setBank c x).setBank b y = (s.setBank b y).setBank c x := by
  cases b <;> cases c <;> simp_all [State.setBank]

/-- A completed access and the replacement of a storage that it does not reach commute. -/
theorem accessCompleted_setBank_other {i : Instr} {s : State} {b c : Bank} (x : Ttbcr) (h : b ≠ c) :
    accessCompleted i (s.setBank c x) b = (accessCompleted i s b).setBank c x := by
  cases i with
  | mrcTtbcr f t =>
    rw [accessCompleted, readBank_setBank_other x h]
    cases c <;> rfl
  | mcrTtbcr f t =>
    rw [accessCompleted, State.writeBank, bank_setBank_other s c x b h, setBank_comm x _ h, setBank_readReg]
    cases c <;> rfl

section
variable {i : Instr} {s : State} {c : Bank} (h : ¬ Reaches s c)
include h

theorem exec_next_bank_unreached {u : State} (hu : exec i s = .next u) : u.bank c = s.bank c := by
  rcases exec_next_completed hu with rfl | ⟨b, hb, rfl⟩
  · exact advancePc_bank s c
  · exact accessCompleted_bank_other fun hcb => h (hcb ▸ hb)

/-- Executing an instruction and replacing a storage that it does not reach commute. -/
theorem exec_setBank_unreached (x : Ttbcr) :
    exec i (s.setBank c x) = Answer.mapNext (·.setBank c x) (exec i s) := by
  have hcond : conditionPassed i.form (s.setBank c x) = conditionPassed i.form s := by
    cases i.form <;> simp [conditionPassed, governingCond]
  cases hw : i.wellFormed with
  | false => simp [exec_of_ill_formed, hw]
  | true =>
    cases hc : conditionPassed i.form s with
    | false =>
      rw [exec_of_failed i s hw hc, exec_of_failed i _ hw (hcond.trans hc)]
      cases c <;> rfl
    | true =>
      have hs : IsAccess i s := ⟨hw, hc⟩
      have hsx : IsAccess i (s.setBank c x) := ⟨hw, hcond.trans hc⟩
      rw [exec_eq_accessAnswer hs, exec_eq_accessAnswer hsx, setBank_cfg, setBank_env]
      cases hr : routeAccess (direction i) s.cfg s.env with
      | raise e => exact (Answer.mapNext_raise _ e).symm
      | access b =>
        have hbc : b ≠ c := fun hbc => h (hbc ▸ routeAccess_reaches _ s b hr)
        exact congrArg _ (accessCompleted_setBank_other x hbc)

end

/-- The Secure storage is named in the row of Secure EL3 alone. -/
theorem not_reaches_ttbcrS {s : State} (h : s.env.el ≠ .el3) : ¬ Reaches s .ttbcrS := by
  simp [Reaches, h]

/-- Settles O31: below EL3 no access reaches TTBCR_S, so executing and replacing it commute. -/
theorem belowEl3TtbcrSIsOutOfReach : Obligations.BelowEl3TtbcrSIsOutOfReach := by
  intro i s x hel
  have hunreached : ¬ Reaches s .ttbcrS := not_reaches_ttbcrS hel
  have hexec : ∀ a, exec i s = a → exec i (s.setBank .ttbcrS x) = Answer.mapNext (·.setBank .ttbcrS x) a :=
    fun a h => h ▸ exec_setBank_unreached hunreached x
  exact ⟨fun u h => ⟨exec_next_bank_unreached hunreached h, hexec _ h⟩, fun r h => hexec _ h, fun r h => hexec _ h⟩

end Sys2Proof.Machine

/-! ## Proofs: who changes a storage of TTBCR -/

namespace Sys2Proof.Machine

/-- An instruction that completes leaves the value of a storage, or is an MCR that reaches it (R105, R106). -/
theorem exec_next_bank_value {i : Instr} {s u : State} {b : Bank} (h : exec i s = .next u) :
    (u.bank b).value = (s.bank b).value ∨
    ∃ f r, i = .mcrTtbcr f r ∧ Reaches s b ∧ (u.bank b).value = s.readReg r := by
  rcases exec_next_completed h with rfl | ⟨c, hc, rfl⟩
  · exact .inl (by rw [advancePc_bank])
  · cases i with
    | mrcTtbcr f r => exact .inl (by rw [accessCompleted_mrc_bank])
    | mcrTtbcr f r =>
      by_cases hb : b = c
      · subst hb
        exact .inr ⟨f, r, rfl, hc, by rw [accessCompleted_mcr_bank_same, Ttbcr.write_value]⟩
      · exact .inl (by rw [accessCompleted_mcr_bank_other s c b f r hb])

/-- A fetch leaves every storage alone. -/
theorem Fetches.bank {s u : State} {bytes : List Byte} (h : Fetches s u bytes) (b : Bank) : u.bank b = s.bank b := by
  obtain ⟨rest, l, rfl, -, -⟩ := h.state
  cases b <;> rfl

theorem Fetches.readReg {s u : State} {bytes : List Byte} (h : Fetches s u bytes) (r : Reg) :
    u.readReg r = s.readReg r := by
  obtain ⟨rest, l, rfl, -, -⟩ := h.state
  rfl

theorem Fetches.reaches {s u : State} {bytes : List Byte} (h : Fetches s u bytes) {b : Bank} (hb : Reaches u b) :
    Reaches s b := by
  obtain ⟨rest, l, rfl, -, -⟩ := h.state
  exact hb

/-- An input leaves the value of a storage, or is one of the three writers among the inputs (R151, D18). -/
theorem applyInput_bank_value {i : Input} {s t : State} {b : Bank} (h : applyInput i s = .next t) :
    (t.bank b).value = (s.bank b).value ∨
    (∃ v, i = .writeTcrEl1 v ∧ b = mappedBank s.cfg s.env ∧ (t.bank b).value = v.setWidth 32) ∨
    (∃ k a d, i = .reset k a d) ∨
    ∃ e d, i = .environment e d ∧ mappedBank s.cfg e ≠ mappedBank s.cfg s.env ∧ b = mappedBank s.cfg e ∧
      (t.bank b).value = d := by
  cases i
  case environment e d =>
    cases h
    rcases changeEnv_bank e d s b with hb | hb
    · exact .inl (congrArg Ttbcr.value hb)
    · exact .inr (.inr (.inr ⟨e, d, rfl, hb⟩))
  case writeTcrEl1 v =>
    cases h
    by_cases hb : b = mappedBank s.cfg s.env
    · subst hb
      exact .inr (.inl ⟨v, rfl, rfl, congrArg Ttbcr.value (writeTcrEl1_bank_mapped v s)⟩)
    · exact .inl (by rw [writeTcrEl1_bank, if_neg hb])
  case reset k a d => exact .inr (.inr (.inl ⟨k, a, d, rfl⟩))
  case contextSync =>
    cases h
    exact .inl (by rw [contextSync_bank])
  case translate sec va choice =>
    obtain ⟨r, rfl⟩ := translate_next sec va choice s t h
    exact .inl (by cases b <;> rfl)
  all_goals
    cases h
    exact .inl (by cases b <;> rfl)

/-- The schedule is no part of a storage. -/
theorem bank_withInputs (s : State) (l : List Input) (b : Bank) : ({ s with inputs := l } : State).bank b = s.bank b := by
  cases b <;> rfl

/-- Settles O29: a step runs an instruction, of which an MCR alone writes, or applies an input, of which three write. -/
theorem onlyTheNamedWritersChangeTtbcr : Obligations.OnlyTheNamedWritersChangeTtbcr := by
  intro s t b hstep hne
  rcases step_next_cases s t hstep with ⟨u, bytes, i, hf, hd, he⟩ | ⟨i, rest, -, hs, happly⟩
  · rcases exec_next_bank_value he with hsame | ⟨f, r, rfl, hb, hv⟩
    · exact absurd (hsame.trans (congrArg Ttbcr.value (hf.bank b))) hne
    · exact .inl ⟨u, bytes, f, r, hf, hd, hf.reaches hb, hv.trans (hf.readReg r)⟩
  · rcases applyInput_bank_value (b := b) happly with hsame | ⟨v, rfl, hb⟩ | ⟨k, a, d, rfl⟩ | ⟨e, d, rfl, hb⟩
    · exact absurd (hsame.trans (congrArg Ttbcr.value (bank_withInputs s rest b))) hne
    · exact .inr (.inl ⟨v, rest, hs, hb⟩)
    · exact .inr (.inr (.inl ⟨k, a, d, rest, hs⟩))
    · exact .inr (.inr (.inr ⟨e, d, rest, hs, hb⟩))

/-! ### An environment input (R152, D18) -/

/-- A name that EL1 and EL2 newly reach holds the draw (D18). -/
theorem changeEnv_bank_mapped (e : Env) (d : Word) (s : State) (h : mappedBank s.cfg e ≠ mappedBank s.cfg s.env) :
    ((changeEnv e d s).bank (mappedBank s.cfg e)).value = d := by
  rw [changeEnv, if_neg h, bank_setBank_same]

theorem changeEnv_bank_other (e : Env) (d : Word) (s : State) (b : Bank) (h : b ≠ mappedBank s.cfg e) :
    (changeEnv e d s).bank b = s.bank b :=
  (changeEnv_bank e d s b).resolve_right fun hb => h hb.2.1

/-- While EL3's execution state stays, no storage changes. -/
theorem changeEnv_bank_of_el3 (e : Env) (d : Word) (s : State) (b : Bank)
    (h : e.el3UsesAArch32 = s.env.el3UsesAArch32) : (changeEnv e d s).bank b = s.bank b :=
  (changeEnv_bank e d s b).resolve_right fun hb => hb.1 (mappedBank_of_el3 s.cfg e s.env h)

/-- Settles O50: the step is `changeEnv`, whose every field is known; TTBCR_S is never the name that EL1 and EL2 reach. -/
theorem environmentChangesEnvAndTheNameNewlyReached : Obligations.EnvironmentChangesEnvAndTheNameNewlyReached := by
  intro s e d rest
  have hother : ∀ b, b ≠ mappedBank s.cfg e → (changeEnv e d { s with inputs := rest }).bank b = s.bank b := fun b hb =>
    (changeEnv_bank_other e d { s with inputs := rest } b hb).trans (bank_withInputs s rest b)
  have hkept : e.el3UsesAArch32 = s.env.el3UsesAArch32 →
      ∀ b, (changeEnv e d { s with inputs := rest }).bank b = s.bank b := fun h b =>
    (changeEnv_bank_of_el3 e d { s with inputs := rest } b h).trans (bank_withInputs s rest b)
  refine ⟨changeEnv e d { s with inputs := rest }, step_input s (.environment e d) rest rfl, ?_⟩
  simp only [changeEnv_env, changeEnv_regs, changeEnv_pc, changeEnv_isa, changeEnv_flags, changeEnv_itCond,
    changeEnv_ttbr0, changeEnv_ttbr1, changeEnv_ttbcr2, changeEnv_tcrEl1Hi, changeEnv_tlb, changeEnv_mem,
    changeEnv_lastTranslation, changeEnv_cfg, changeEnv_inputs, true_and]
  exact ⟨hother .ttbcrS (mappedBank_ne_ttbcrS s.cfg e).symm, hother,
    changeEnv_bank_mapped e d { s with inputs := rest }, hkept⟩

/-! ### Old and new values (R148, D12) -/

/-- After a context synchronization event a translation has the current value alone to use. -/
theorem contextSync_pick (s : State) (b : Bank) (choice : Nat) :
    ((contextSync s).bank b).pick choice = (s.bank b).value := by
  rw [contextSync_bank, Ttbcr.pick_nil]

/-- A storage just written offers the value written and the one it replaced. -/
theorem Ttbcr.pick_write (x : Ttbcr) (v : Word) : (x.write v).pick 0 = v ∧ (x.write v).pick 1 = x.value :=
  ⟨rfl, rfl⟩

/-- Settles O45: the write keeps the old value beside the new one, and the synchronization drops what is kept. -/
theorem translationsSeeOldOrNewUntilSynchronized : Obligations.TranslationsSeeOldOrNewUntilSynchronized := by
  intro f t s u b hacc hexec hb
  obtain ⟨c, hc, rfl⟩ := (exec_eq_next_iff hacc).1 hexec
  obtain rfl := Reaches.unique s b c hb (routeAccess_reaches _ s c hc)
  have hpick := Ttbcr.pick_write (s.bank b) (s.readReg t)
  rw [← accessCompleted_mcr_bank_same s b f t] at hpick
  refine ⟨hpick.1, hpick.2, by simp [State.readBank], fun rest => ⟨_, step_input _ .contextSync rest rfl, ?_⟩⟩
  intro d choice
  rw [contextSync_pick, contextSync_bank, bank_withInputs]
  exact ⟨rfl, rfl⟩

end Sys2Proof.Machine

/-! ## Proofs: reset -/

namespace Sys2Proof.Machine

/-! ### What a reset leaves in the storages (R141 to R145) -/

/-- The bits with a stated reset value are 0 after a reset that states them, and the others are the draw's (R142). -/
theorem Ttbcr.resetAll_bits (draw : Word) :
    (Ttbcr.resetAll draw).value &&& 0xFFC73FB7#32 = 0 ∧
    (Ttbcr.resetAll draw).value &&& 0x0038C048#32 = draw &&& 0x0038C048#32 := by
  have hstated : ~~~resetMask &&& 0xFFC73FB7#32 = 0 := by decide
  have hopen : ~~~resetMask &&& 0x0038C048#32 = 0x0038C048#32 := by decide
  rw [Ttbcr.resetAll, BitVec.and_assoc, hstated, BitVec.and_assoc, hopen]
  exact ⟨BitVec.and_zero, rfl⟩

/-- A reset that states EAE alone clears it and leaves the other bits to the draw (R141). -/
theorem Ttbcr.resetEae_bits (draw : Word) :
    (Ttbcr.resetEae draw).value.getLsbD 31 = false ∧
    ∀ i, i < 31 → (Ttbcr.resetEae draw).value.getLsbD i = draw.getLsbD i := by
  have hlow : ∀ i < 31, (0x7FFFFFFF#32).getLsbD i = true := by decide
  refine ⟨by simp [Ttbcr.resetEae], fun i hi => ?_⟩
  rw [Ttbcr.resetEae, BitVec.getLsbD_and, hlow i hi, Bool.and_true]

/-- A reset into EL3 using AArch32 states TTBCR_S whole and EAE of TTBCR_NS (R141). -/
theorem resetArch_el3 (d : Arch) (h : d.env.el = .el3) :
    (resetArch true d).ttbcrS = Ttbcr.resetAll d.ttbcrS.value ∧
    (resetArch true d).ttbcrNS = Ttbcr.resetEae d.ttbcrNS.value := by
  rw [resetArch, if_pos rfl, h]
  exact ⟨rfl, rfl⟩

/-- A reset into another AArch32 Exception level states TTBCR whole (R141). -/
theorem resetArch_below_el3 (d : Arch) (h : d.env.el ≠ .el3) :
    (resetArch true d).ttbcr = Ttbcr.resetAll d.ttbcr.value := by
  rw [resetArch, if_pos rfl]
  split
  · exact absurd ‹_› h
  · rfl

/-- Settles O34: the reset value of each storage is the draw's with the stated bits cleared. -/
theorem resetIntoAArch32 : Obligations.ResetIntoAArch32 := by
  intro s k d rest
  refine ⟨_, step_input s (.reset k true d) rest rfl, rfl, rfl, resetArch_env true d, fun hel => ?_, fun hel => ?_⟩
  · obtain ⟨hS, hNS⟩ := resetArch_el3 d hel
    obtain ⟨hstated, hopen⟩ := Ttbcr.resetAll_bits d.ttbcrS.value
    simp only [hS, hNS]
    exact ⟨hstated, hopen, Ttbcr.resetEae_bits d.ttbcrNS.value⟩
  · simp only [resetArch_below_el3 d hel]
    exact Ttbcr.resetAll_bits d.ttbcr.value

/-- The draw of a reset with an Exception level and a value for each storage, and all else as in the reset state. -/
def resetDraw (el : EL) (a b c : Word) : Arch :=
  { State.reset.toArch with
    env := { resetEnv with el := el }, ttbcr := ⟨a, []⟩, ttbcrS := ⟨b, []⟩, ttbcrNS := ⟨c, []⟩ }

/-- Settles O35: without AArch32 the storages hold the draw's values, whatever they are. -/
theorem resetIntoAArch64StatesNothing : Obligations.ResetIntoAArch64StatesNothing := by
  intro s k a b c rest el
  exact ⟨resetDraw el a b c, _, rfl, step_input s (.reset k false (resetDraw el a b c)) rest rfl, rfl, rfl, rfl⟩

/-- Settles O37: the reset state has 0 in both storages. -/
theorem resetStateHasTheStatedValues : Obligations.ResetStateHasTheStatedValues :=
  ⟨rfl, rfl, rfl, rfl⟩

/-! ### What the reset value means (R142, R146) -/

/-- A field that a mask covers is 0 in a value with the masked bits 0. -/
theorem field_eq_zero_of_and_eq_zero {v mask : Word} (h : v &&& mask = 0) (start len : Nat)
    (hcover : mask.extractLsb' start len = BitVec.allOnes len) : v.extractLsb' start len = 0#len := by
  have hfield := congrArg (BitVec.extractLsb' start len) h
  rwa [BitVec.extractLsb'_and, hcover, BitVec.and_allOnes, BitVec.ofNat_eq_ofNat, BitVec.extractLsb'_zero] at hfield

/-- Settles O36: each field named lies in the bits that are 0, and with EAE, PD0 and PD1 clear both walks are enabled. -/
theorem resetValueReadsAsTheResetFields : Obligations.ResetValueReadsAsTheResetFields := by
  intro v h
  have heae : eae v = false := by
    rw [eae, ← extractLsb'_one_eq, field_eq_zero_of_and_eq_zero h 31 1 (by decide)]
    rfl
  have hpd1 : (ShortFields.ofWord v).pd1 = 0 := field_eq_zero_of_and_eq_zero h 5 1 (by decide)
  have hpd0 : (ShortFields.ofWord v).pd0 = 0 := field_eq_zero_of_and_eq_zero h 4 1 (by decide)
  have hn : (ShortFields.ofWord v).n = 0 := field_eq_zero_of_and_eq_zero h 0 3 (by decide)
  exact ⟨(tableFormat_eq_short v).2 heae, hpd1, hpd0, hn, by simp [walkDisabled, heae, hpd0],
    by simp [walkDisabled, heae, hpd1], by rw [hn]; rfl,
    field_eq_zero_of_and_eq_zero h 30 1 (by decide), field_eq_zero_of_and_eq_zero h 28 2 (by decide),
    field_eq_zero_of_and_eq_zero h 26 2 (by decide), field_eq_zero_of_and_eq_zero h 24 2 (by decide),
    field_eq_zero_of_and_eq_zero h 23 1 (by decide), field_eq_zero_of_and_eq_zero h 22 1 (by decide),
    field_eq_zero_of_and_eq_zero h 16 3 (by decide), field_eq_zero_of_and_eq_zero h 12 2 (by decide),
    field_eq_zero_of_and_eq_zero h 10 2 (by decide), field_eq_zero_of_and_eq_zero h 8 2 (by decide),
    field_eq_zero_of_and_eq_zero h 7 1 (by decide), field_eq_zero_of_and_eq_zero h 0 3 (by decide)⟩

end Sys2Proof.Machine

/-! ## Proofs: how runs of accesses end -/

namespace Sys2Proof.Machine

/-! ### A step that is an access -/

/-- A fetched instruction that completes advances the program counter and takes the head off the schedule (R106, R110). -/
theorem exec_of_fetches_frame {s u t : State} {bytes : List Byte} {i : Instr} (hf : Fetches s u bytes)
    (he : exec i u = .next t) :
    t.pc = s.pc + 4 ∧ t.env = s.env ∧ t.mem = s.mem ∧ t.tlb = s.tlb ∧ t.inputs = s.inputs.tail := by
  obtain ⟨rest, l, rfl, -, rfl⟩ := hf.state
  obtain ⟨hpc, -, -, -, henv, hmem, htlb, -, hin⟩ := exec_next_frame i _ t he
  exact ⟨hpc, henv, hmem, htlb, hin⟩

/-- A completed fetch leaves the condition as it was. -/
theorem Fetches.isAccess {s u : State} {bytes : List Byte} (h : Fetches s u bytes) {i : Instr} (hi : IsAccess i s) :
    IsAccess i u := by
  obtain ⟨rest, l, rfl, -, -⟩ := h.state
  exact hi

section
variable {s : State} {p : ListedAccess} (h : RunsAccess s p)
include h

theorem RunsAccess.step_next_pc {u : State} (hu : step s = .next u) : u.pc = s.pc + 4 := by
  obtain ⟨w, bytes, i, hf, hd, -, -⟩ := h
  exact (exec_of_fetches_frame hf ((step_of_fetches_decode hf hd).symm.trans hu)).1

/-- The bytes that decode to a listed access are its own. -/
theorem RunsAccess.fetchesAccess : FetchesAccess s p := by
  obtain ⟨u, bytes, i, hf, hd, rfl, -⟩ := h
  obtain ⟨-, hisa, hbytes⟩ := (decode_eq_ok s.isa bytes i).1 hd
  exact ⟨u, bytes, hf, hisa, by rw [listed_bytes, hbytes]⟩

/-- An access completes, or stops under the condition of R121, R122 or R123. -/
theorem RunsAccess.step_cases :
    (∃ u, step s = .next u ∧ ¬ UndefinedAccess p.dir s ∧ ¬ TrappedToAArch32 p.dir s ∧ ¬ TrappedToAArch64 p.dir s) ∨
    (AccessStops (step s) ∧
      (UndefinedAccess p.dir s ∨ TrappedToAArch32 p.dir s ∨ TrappedToAArch64 p.dir s)) := by
  obtain ⟨u, bytes, i, hf, hd, rfl, hacc⟩ := h
  rw [step_of_fetches_decode hf hd]
  have hcases := exec_access_cases i u (hf.isAccess hacc)
  obtain ⟨rest, l, rfl, -, -⟩ := hf.state
  rcases hcases with hnext | ⟨hexec, hu⟩ | ⟨hexec, h32⟩ | ⟨hexec, h64⟩
  · exact .inl hnext
  · exact .inr ⟨.inl hexec, .inl hu⟩
  · exact .inr ⟨.inr (.inl hexec), .inr (.inl h32)⟩
  · exact .inr ⟨.inr (.inr (.inl hexec)), .inr (.inr h64)⟩

end

theorem AccessStops.not_safe {o : Answer} (h : AccessStops o) : ¬ Safe o := by
  rintro ⟨t, rfl⟩
  rcases h with h | h | h | ⟨r, h⟩ <;> cases h

theorem TranslationStops.not_safe {o : Answer} (h : TranslationStops o) : ¬ Safe o := by
  rintro ⟨t, rfl⟩
  rcases h with ⟨va, x, h⟩ | ⟨x, h⟩ <;> cases h

/-! ### The step at the head of a run -/

/-- A run over a step with a next state goes on from there: past an event with the same accesses, past an access with the
rest of them. -/
theorem AccessRun.of_next {a : Word} {p : ListedAccess} {prog : List ListedAccess} {s u t : State}
    (h : AccessRun a (p :: prog) s t) (hu : step s = .next u) :
    (s.runsInstruction = false ∧ AccessRun a (p :: prog) u t) ∨ (RunsAccess s p ∧ AccessRun (a + 4) prog u t) := by
  cases h with
  | event _ _ _ _ w _ he hw hrun =>
    cases hw.symm.trans hu
    exact .inl ⟨he, hrun⟩
  | access _ _ _ _ w _ _ hp hw hrun =>
    cases hw.symm.trans hu
    exact .inr ⟨hp, hrun⟩

/-- A run that ends abnormally, over a step with a next state, ends so from there. -/
theorem EndsAbnormally.of_next {a : Word} {p : ListedAccess} {prog : List ListedAccess} {s u : State}
    (h : EndsAbnormally a (p :: prog) s) (hu : step s = .next u) :
    (s.runsInstruction = false ∧ EndsAbnormally a (p :: prog) u) ∨ (RunsAccess s p ∧ EndsAbnormally (a + 4) prog u) := by
  cases h with
  | accessStops _ _ _ _ _ _ hstop => exact absurd ⟨u, hu⟩ hstop.not_safe
  | translationStops _ _ _ _ _ hstop => exact absurd ⟨u, hu⟩ hstop.not_safe
  | event _ _ _ _ w he hw hrun =>
    cases hw.symm.trans hu
    exact .inl ⟨he, hrun⟩
  | access _ _ _ _ w _ hp hw hrun =>
    cases hw.symm.trans hu
    exact .inr ⟨hp, hrun⟩

/-- The next step of a run that ends abnormally stops as an access or a translation, or has a next state. -/
theorem EndsAbnormally.step_cases {a : Word} {p : ListedAccess} {prog : List ListedAccess} {s : State}
    (h : EndsAbnormally a (p :: prog) s) : AccessStops (step s) ∨ TranslationStops (step s) ∨ Safe (step s) := by
  cases h with
  | accessStops _ _ _ _ _ _ hstop => exact .inl hstop
  | translationStops _ _ _ _ _ hstop => exact .inr (.inl hstop)
  | event _ _ _ _ w _ hw _ => exact .inr (.inr ⟨w, hw⟩)
  | access _ _ _ _ w _ _ hw _ => exact .inr (.inr ⟨w, hw⟩)

theorem not_endsAbnormally_nil (a : Word) (s : State) : ¬ EndsAbnormally a [] s := nofun

/-- No step is both an event and an access. -/
theorem RunsAccess.not_event {s : State} {p : ListedAccess} (h : RunsAccess s p) : s.runsInstruction ≠ false := by
  rw [h.runsInstruction]
  decide

/-! ### Normal ends (R153, D24) -/

/-- A completed run of accesses leaves the program counter after the last of them, 4 on for each (R110). -/
theorem AccessRun.pc_eq {a : Word} {prog : List ListedAccess} {s t : State} (h : AccessRun a prog s t)
    (hne : prog ≠ []) : t.pc = a + BitVec.ofNat 32 (4 * prog.length) := by
  induction h with
  | ended a s => exact absurd rfl hne
  | event a p prog s u t _ _ _ ih => exact ih hne
  | access a p prog s u t hpc hp hu hrun ih =>
    have hupc : u.pc = a + 4 := hpc ▸ hp.step_next_pc hu
    cases prog with
    | nil =>
      cases hrun
      exact hupc
    | cons q prog =>
      rw [ih (List.cons_ne_nil q prog), List.length_cons (a := p), Nat.mul_succ, BitVec.ofNat_add]
      bv_omega

theorem AccessRun.not_endsAbnormally {a : Word} {prog : List ListedAccess} {s t : State} (h : AccessRun a prog s t) :
    ¬ EndsAbnormally a prog s := by
  induction h with
  | ended a s => exact not_endsAbnormally_nil a s
  | event a p prog s u t he hu _ ih =>
    intro habn
    rcases habn.of_next hu with ⟨-, hrest⟩ | ⟨hp, -⟩
    · exact ih hrest
    · exact hp.not_event he
  | access a p prog s u t _ hp hu _ ih =>
    intro habn
    rcases habn.of_next hu with ⟨he, -⟩ | ⟨-, hrest⟩
    · exact hp.not_event he
    · exact ih hrest

theorem AccessRun.unique {a : Word} {prog : List ListedAccess} {s t : State} (h : AccessRun a prog s t) :
    ∀ w, AccessRun a prog s w → w = t := by
  induction h with
  | ended a s =>
    intro w hw
    cases hw
    rfl
  | event a p prog s u t he hu _ ih =>
    intro w hw
    rcases hw.of_next hu with ⟨-, hrest⟩ | ⟨hp, -⟩
    · exact ih w hrest
    · exact absurd he hp.not_event
  | access a p prog s u t _ hp hu _ ih =>
    intro w hw
    rcases hw.of_next hu with ⟨he, -⟩ | ⟨-, hrest⟩
    · exact absurd he hp.not_event
    · exact ih w hrest

/-- A step with nothing scheduled that completes is an instruction, and leaves nothing scheduled. -/
theorem step_next_frame_of_no_inputs {s t : State} (hs : s.inputs = []) (h : step s = .next t) :
    t.pc = s.pc + 4 ∧ t.env = s.env ∧ t.mem = s.mem ∧ t.tlb = s.tlb ∧ t.inputs = [] := by
  rcases step_next_cases s t h with ⟨u, bytes, i, hf, -, he⟩ | ⟨i, rest, -, hin, -⟩
  · have hframe := exec_of_fetches_frame hf he
    rwa [hs, List.tail_nil] at hframe
  · cases hs.symm.trans hin

theorem run_next_frame_of_no_inputs (n : Nat) : ∀ s t : State, s.inputs = [] → run n s = .next t →
    t.pc = s.pc + BitVec.ofNat 32 (4 * n) ∧ t.env = s.env ∧ t.mem = s.mem ∧ t.tlb = s.tlb ∧ t.inputs = [] := by
  induction n with
  | zero =>
    intro s t hs h
    cases h
    exact ⟨(BitVec.add_zero s.pc).symm, rfl, rfl, rfl, hs⟩
  | succ n ih =>
    intro s t hs h
    rw [run_succ] at h
    split at h
    · rename_i u hu
      obtain ⟨hpc, henv, hmem, htlb, hin⟩ := step_next_frame_of_no_inputs hs hu
      obtain ⟨hpc', henv', hmem', htlb', hin'⟩ := ih u t hin h
      refine ⟨?_, henv'.trans henv, hmem'.trans hmem, htlb'.trans htlb, hin'⟩
      rw [hpc', hpc, Nat.mul_succ, BitVec.ofNat_add]
      bv_omega
    · cases h
    · cases h

/-- Settles O32: each part by induction, on the run of accesses or on the number of steps. -/
theorem completedRunsEndNormally : Obligations.CompletedRunsEndNormally :=
  ⟨fun _ _ _ _ hne h => ⟨⟨h, h.pc_eq hne⟩, h.not_endsAbnormally, h.unique⟩, run_next_frame_of_no_inputs⟩

/-! ### Registers that are refused (R86, D8) -/

theorem bytesOfWord_injective (isa : Isa) : Function.Injective (bytesOfWord isa) := by
  intro w v h
  obtain ⟨b0, b1, b2, b3, hv⟩ : ∃ b0 b1 b2 b3, bytesOfWord isa v = [b0, b1, b2, b3] := by
    cases isa <;> exact ⟨_, _, _, _, rfl⟩
  exact (wordOfBytes_bytesOfWord isa w b0 b1 b2 b3 (h.trans hv)).symm.trans
    (wordOfBytes_bytesOfWord isa v b0 b1 b2 b3 hv)

/-- An instruction with the bytes of a listed access has its register. -/
theorem ListedAccess.rt_eq {p : ListedAccess} {i : Instr} (hisa : i.form.isa = p.form.isa)
    (hbytes : encodeBytes i = p.bytes) : p.rt.toNat = i.rt.val := by
  rw [encodeBytes, ListedAccess.bytes, hisa] at hbytes
  have hword := bytesOfWord_injective _ hbytes
  obtain ⟨-, -, hi, -⟩ := encodeTransfer_fields i.form.topBits i.lBit (Reg.bits i.rt) SysReg.ttbcr
  rw [← encode, hword] at hi
  obtain ⟨-, -, hp, -⟩ := encodeTransfer_fields p.form.topBits _ p.rt SysReg.ttbcr
  exact (Reg.bits_eq_iff _ _).1 (hi.symm.trans hp)

/-- Bytes of an access with a refused register decode to no instruction. -/
theorem ListedAccess.decode_ne_ok_of_isRefused {p : ListedAccess} {bytes : List Byte} (hp : p.isRefused)
    (hbytes : bytes.take 4 = p.bytes) (i : Instr) : decode p.form.isa bytes ≠ .ok i := by
  rw [ne_eq, decode_eq_ok, hbytes]
  rintro ⟨hwf, hisa, hi⟩
  have hrt := ListedAccess.rt_eq hisa hi
  rcases hp with h15 | ⟨ht32, h13⟩
  · rw [h15] at hrt
    exact i.rt.isLt.ne hrt.symm
  · have hform : i.form = .t32 := by
      rw [ht32] at hisa
      cases hf : i.form with
      | a32 c => rw [hf] at hisa; cases hisa
      | t32 => rfl
    rw [h13] at hrt
    exact (wellFormed_t32_iff i hform).1 hwf (Fin.ext hrt.symm)

/-- A step that fetches an access with a refused register is refused. -/
theorem step_of_isRefused {s : State} {p : ListedAccess} (h : FetchesAccess s p) (hp : p.isRefused) :
    ∃ r, step s = .refused r := by
  obtain ⟨u, bytes, hf, hisa, hbytes⟩ := h
  have hno := ListedAccess.decode_ne_ok_of_isRefused hp hbytes
  rw [step_of_fetches hf]
  obtain ⟨rest, l, rfl, -, -⟩ := hf.state
  rw [hisa] at hno
  cases hd : decode s.isa bytes with
  | error e => exact ⟨.encoding e, by simp only [runFetched, hd]⟩
  | ok i => exact absurd hd (hno i)

/-! ### Abnormal ends (R153, D24) -/

section
variable {a : Word} {p : ListedAccess} {prog : List ListedAccess} {s : State}

/-- With the access at its address a run ends abnormally at that access or after it. -/
theorem endsAbnormally_iff_of_runsAccess (hpc : s.pc = a) (hp : RunsAccess s p) :
    EndsAbnormally a (p :: prog) s ↔
      UndefinedAccess p.dir s ∨ TrappedToAArch32 p.dir s ∨ TrappedToAArch64 p.dir s ∨
      ∃ u, step s = .next u ∧ EndsAbnormally (a + 4) prog u := by
  rcases hp.step_cases with ⟨u, hu, hundef, h32, h64⟩ | ⟨hstop, hcond⟩
  · simp only [hundef, h32, h64, false_or]
    constructor
    · intro habn
      rcases habn.of_next hu with ⟨he, -⟩ | ⟨-, hrest⟩
      · exact absurd he hp.not_event
      · exact ⟨u, hu, hrest⟩
    · rintro ⟨w, hw, hrest⟩
      exact .access a p prog s w hpc hp hw hrest
  · refine iff_of_true (.accessStops a p prog s hpc hp.fetchesAccess hstop) ?_
    exact hcond.imp_right (.imp_right .inl)

/-- Before an event a run ends abnormally at the event or after it. -/
theorem endsAbnormally_iff_of_event (he : s.runsInstruction = false) :
    EndsAbnormally a (p :: prog) s ↔ ¬ Safe (step s) ∨ ∃ u, step s = .next u ∧ EndsAbnormally a (p :: prog) u := by
  rcases step_event_cases s he with ⟨u, hu⟩ | hstop
  · constructor
    · intro habn
      rcases habn.of_next hu with ⟨-, hrest⟩ | ⟨hp, -⟩
      · exact .inr ⟨u, hu, hrest⟩
      · exact absurd he hp.not_event
    · rintro (hunsafe | ⟨w, hw, hrest⟩)
      · exact absurd ⟨u, hu⟩ hunsafe
      · exact .event a p prog s w he hw hrest
  · exact iff_of_true (.translationStops a p prog s (by simp [he]) hstop) (.inl hstop.not_safe)

/-- A fetch that reads no four bytes is no end of a run (log 7, log 8). -/
theorem not_endsAbnormally_of_fetch_stop (x : Word)
    (h : step s = .fault (.pcMisaligned x) ∨ step s = .fault (.fetchUnwritten x) ∨ step s = .fault (.fetchAbsent x)) :
    ¬ EndsAbnormally a (p :: prog) s := by
  intro habn
  have hcases := habn.step_cases
  rcases h with h | h | h <;> simp [h, AccessStops, TranslationStops, Safe] at hcases

end

/-- Settles O33: what a run ends at is read off the step at its head. -/
theorem runsEndAbnormallyAtTheFirstExceptionalOutcome :
    Obligations.RunsEndAbnormallyAtTheFirstExceptionalOutcome := by
  intro a p prog s
  refine ⟨endsAbnormally_iff_of_runsAccess, endsAbnormally_iff_of_event, fun hpc hf hp => ?_,
    not_endsAbnormally_of_fetch_stop, not_endsAbnormally_nil a s⟩
  obtain ⟨r, hr⟩ := step_of_isRefused hf hp
  exact .accessStops a p prog s hpc hf (.inr (.inr (.inr ⟨r, hr⟩)))

end Sys2Proof.Machine

/-! ## Proofs: failed conditions and sample words -/

namespace Sys2Proof

/-- Settles O15: advancing the program counter is the whole meaning of an instruction whose condition fails. -/
theorem failedConditionOnlyAdvances : Obligations.FailedConditionOnlyAdvances :=
  Machine.exec_of_failed

/-- Bytes that are the encoding of a well-formed instruction decode to it. -/
theorem decode_of_encodeBytes_eq {i : Instr} {bytes : List Byte} (hwf : i.wellFormed = true)
    (hbytes : encodeBytes i = bytes) : decode i.form.isa bytes = .ok i := by
  simpa [hbytes] using decodeOfEncodeIsTheInstruction i [] hwf

/-- Settles O23: the bytes are the encodings of the instructions, which decode to themselves. -/
theorem sampleWordsDecode : Obligations.SampleWordsDecode :=
  ⟨decode_of_encodeBytes_eq (i := .mrcTtbcr (.a32 .al) 0) rfl (by decide),
    decode_of_encodeBytes_eq (i := .mcrTtbcr (.a32 .al) 1) rfl (by decide),
    decode_of_encodeBytes_eq (i := .mcrTtbcr (.a32 .ne) 5) rfl (by decide),
    decode_of_encodeBytes_eq (i := .mrcTtbcr .t32 14) rfl (by decide)⟩

end Sys2Proof
